-- ==== Sys2Proof/Word.lean ====
section
/-! DEFINITION. The word types of the block (`00_scope.md` rule R157) and the plain containers its register
arrays are held in: two like things (accumulators, extension registers, `NUM_ACC = NUM_AX = 2`) and four like
things (address, index, wrap-mask and stack registers, `NUM_AR = NUM_ST = 4`), rule R7. -/

namespace Sys2Proof

/-- A 16-bit register window (`WORD = 16`, rule R7). -/
abbrev Word := BitVec 16

/-- A long value: 40 bits, read as two's complement (`ACC_WIDTH = 40`, rules R7 and R157). -/
abbrev Long := BitVec 40

/-- The number of an accumulator or of an accumulator-extension register. -/
inductive Two where
  | i0 | i1
  deriving DecidableEq, Repr

/-- The number of an address, index, wrap-mask or stack register. -/
inductive Four where
  | i0 | i1 | i2 | i3
  deriving DecidableEq, Repr

/-- Two like registers. -/
structure Bank2 (α : Type) where
  r0 : α
  r1 : α
  deriving DecidableEq, Repr

/-- Four like registers. -/
structure Bank4 (α : Type) where
  r0 : α
  r1 : α
  r2 : α
  r3 : α
  deriving DecidableEq, Repr

variable {α : Type}

/-- Read one register of two. -/
def Bank2.get (b : Bank2 α) : Two → α
  | .i0 => b.r0
  | .i1 => b.r1

/-- Replace one register of two. -/
def Bank2.set (b : Bank2 α) (i : Two) (x : α) : Bank2 α :=
  match i with
  | .i0 => { b with r0 := x }
  | .i1 => { b with r1 := x }

/-- Read one register of four. -/
def Bank4.get (b : Bank4 α) : Four → α
  | .i0 => b.r0
  | .i1 => b.r1
  | .i2 => b.r2
  | .i3 => b.r3

/-- Replace one register of four. -/
def Bank4.set (b : Bank4 α) (i : Four) (x : α) : Bank4 α :=
  match i with
  | .i0 => { b with r0 := x }
  | .i1 => { b with r1 := x }
  | .i2 => { b with r2 := x }
  | .i3 => { b with r3 := x }

end Sys2Proof
end

