-- ==== Sys2Proof/Syntax.lean ====
section
/-! DEFINITION. The 32 commands of the block (`30_encoding.md` rule R58), one constructor per row of
`spec/opcode_table.json`, and the operands they take. Every operand type admits exactly the values the command
word's formats admit (rules R51, R54, R55, R57, R90), so every term is a well-formed command. -/

namespace Sys2Proof

/-- The register names of the 5-bit architectural index, all 32 of them (`10_state.md` rule R33). -/
inductive Reg where
  | ar (n : Four)
  | ix (n : Four)
  | wr (n : Four)
  | st (k : Four)
  | ach (a : Two)
  | cr
  | sr
  | prodl
  | prodm
  | prodh
  | prodm2
  | axl (x : Two)
  | axh (x : Two)
  | acl (a : Two)
  | acm (a : Two)
  deriving DecidableEq, Repr

/-- The multiplier's sign mode: 0 signed, 1 unsigned, 2 mixed (rules R62 and R83). Mode 3 is reserved (rule R90)
and is no value of this type. -/
inductive MulMode where
  | ss | uu | us
  deriving DecidableEq, Repr

/-- The sixteen condition codes by the names of `43_status_cond.md` rule R96, in code order. -/
inductive Cond where
  | ge | l | g | le | nz | z | nc | c | nas | as | a | na | lnz | lz | o | t
  deriving DecidableEq, Repr

/-- The commands (rule R58). `q` of the address unit selects the write-back queue, `w` of the multiplier writes
the product register (rule R53). -/
inductive Instr where
  | nop
  | arinc (n : Four) (q : Bool)
  | ardec (n : Four) (q : Bool)
  | araddix (n : Four) (q : Bool)
  | arsubix (n : Four) (q : Bool)
  | accget (a : Two)
  | accset (a : Two) (v : Long)
  | cext (i : Reg)
  | prodget
  | prodgetr
  | prodset (v : Long)
  | mul (mode : MulMode) (w : Bool) (a b : Word)
  | mac (mode : MulMode) (w : Bool) (a b : Word)
  | msub (mode : MulMode) (w : Bool) (a b : Word)
  | mulx (sa sb : Bool) (w : Bool)
  | sr16 (x : Word) (c o f : Bool)
  | sr64 (x : Long) (c o : Bool)
  | srlz (b : Bool)
  | cond (cc : Cond)
  | regrd (i : Reg)
  | regrds (a : Two)
  | regwr (i : Reg) (v : Word)
  | wbappend (i : Reg) (v : Word)
  | wbflush
  | wbzero
  | wbzerop (a : Two)
  | step (len : Word)
  | loopend
  | pcrd
  | pcwr (t : Word)
  | crrd
  | crwr (v : Word)
  deriving DecidableEq, Repr

end Sys2Proof
end

