-- ==== Sys2Proof/Decode.lean ====
section
/-! DEFINITION. The command word (`30_encoding.md`): its fields (R51), the formats (R51), the opcode map (R58), the
decoder, which refuses every reserved word by name (R59, R90), and after it the encoder (R51, R58). -/

namespace Sys2Proof

/-! ### The fields of a word (rule R51) -/

/-- The six fields of the 64-bit command word (rule R51). -/
structure Fields where
  op : BitVec 6
  q : Bool
  r : BitVec 5
  f : BitVec 4
  z : BitVec 8
  d : BitVec 40
  deriving DecidableEq, Repr

/-- The fields of a word: `op` 63:58, `q` 57, `r` 56:52, `f` 51:48, `z` 47:40, `d` 39:0 (rule R51). -/
def fieldsOf (w : BitVec 64) : Fields where
  op := w.extractLsb' 58 6
  q := w.getLsbD 57
  r := w.extractLsb' 52 5
  f := w.extractLsb' 48 4
  z := w.extractLsb' 40 8
  d := w.extractLsb' 0 40

/-- The word that has the given fields (rule R51). -/
def wordOf (c : Fields) : BitVec 64 :=
  c.op ++ BitVec.ofBool c.q ++ c.r ++ c.f ++ c.z ++ c.d

/-! ### Numbers of registers, modes and conditions -/

/-- A number below 2 as one bit (format C, rule R54). -/
def bitOfTwo : Two → Bool
  | .i0 => false
  | .i1 => true

/-- The number below 2 that one bit names (rule R54). -/
def twoOfBit : Bool → Two
  | false => .i0
  | true => .i1

/-- A number below 4 as two bits (format A, rule R54). -/
def bitsOfFour : Four → BitVec 2
  | .i0 => 0#2
  | .i1 => 1#2
  | .i2 => 2#2
  | .i3 => 3#2

/-- The number below 4 that two bits name (rule R54). -/
def fourOfBits (b : BitVec 2) : Four :=
  match b.getLsbD 1, b.getLsbD 0 with
  | false, false => .i0
  | false, true => .i1
  | true, false => .i2
  | true, true => .i3

/-- The register index map of `10_state.md` rule R33: the index of each name. -/
def indexOfReg : Reg → BitVec 5
  | .ar n => 0b000#3 ++ bitsOfFour n
  | .ix n => 0b001#3 ++ bitsOfFour n
  | .wr n => 0b010#3 ++ bitsOfFour n
  | .st k => 0b011#3 ++ bitsOfFour k
  | .ach a => 0b1000#4 ++ BitVec.ofBool (bitOfTwo a)
  | .cr => 0x12#5
  | .sr => 0x13#5
  | .prodl => 0x14#5
  | .prodm => 0x15#5
  | .prodh => 0x16#5
  | .prodm2 => 0x17#5
  | .axl x => 0b1100#4 ++ BitVec.ofBool (bitOfTwo x)
  | .axh x => 0b1101#4 ++ BitVec.ofBool (bitOfTwo x)
  | .acl a => 0b1110#4 ++ BitVec.ofBool (bitOfTwo a)
  | .acm a => 0b1111#4 ++ BitVec.ofBool (bitOfTwo a)

/-- The register index map read the other way: the register each of the 32 indices names (rule R33). -/
def regOfIndex (i : BitVec 5) : Reg :=
  let n := fourOfBits (i.extractLsb' 0 2)
  let a := twoOfBit (i.getLsbD 0)
  match i.getLsbD 4, i.getLsbD 3, i.getLsbD 2, i.getLsbD 1 with
  | false, false, false, _ => .ar n
  | false, false, true, _ => .ix n
  | false, true, false, _ => .wr n
  | false, true, true, _ => .st n
  | true, false, false, false => .ach a
  | true, false, false, true => if i.getLsbD 0 then .sr else .cr
  | true, false, true, false => if i.getLsbD 0 then .prodm else .prodl
  | true, false, true, true => if i.getLsbD 0 then .prodm2 else .prodh
  | true, true, false, false => .axl a
  | true, true, false, true => .axh a
  | true, true, true, false => .acl a
  | true, true, true, true => .acm a

/-- The number of a multiplier mode (rule R62). -/
def bitsOfMode : MulMode → BitVec 2
  | .ss => 0#2
  | .uu => 1#2
  | .us => 2#2

/-- The multiplier mode two bits name; 3 names none (rule R90). -/
def modeOfBits (b : BitVec 2) : Option MulMode :=
  match b.getLsbD 1, b.getLsbD 0 with
  | false, false => some .ss
  | false, true => some .uu
  | true, false => some .us
  | true, true => none

/-- The number of a condition code (rule R96). -/
def bitsOfCond : Cond → BitVec 4
  | .ge => 0#4
  | .l => 1#4
  | .g => 2#4
  | .le => 3#4
  | .nz => 4#4
  | .z => 5#4
  | .nc => 6#4
  | .c => 7#4
  | .nas => 8#4
  | .as => 9#4
  | .a => 10#4
  | .na => 11#4
  | .lnz => 12#4
  | .lz => 13#4
  | .o => 14#4
  | .t => 15#4

/-- The sixteen condition codes in code order (rule R96). -/
def allConds : List Cond :=
  [.ge, .l, .g, .le, .nz, .z, .nc, .c, .nas, .as, .a, .na, .lnz, .lz, .o, .t]

/-- The condition a 4-bit code names; every code names one (rule R97). -/
def condOfBits (b : BitVec 4) : Cond :=
  allConds.getD b.toNat .t

/-! ### Formats and opcodes (rules R51 and R58) -/

/-- A format: which bits of the fields `q`, `r`, `f` and `d` it uses; the others "must be 0" (rule R51). -/
structure Format where
  q : Bool
  r : BitVec 5
  f : BitVec 4
  d : BitVec 40
  deriving DecidableEq, Repr

/-- The 32 assigned operation codes by mnemonic (rule R58). -/
inductive Opcode where
  | nop
  | arinc | ardec | araddix | arsubix
  | accget | accset | cext | prodget | prodgetr | prodset
  | mul | mac | msub | mulx
  | sr16 | sr64 | srlz | cond
  | regrd | regrds | regwr
  | wbappend | wbflush | wbzero | wbzerop
  | step | loopend | pcrd | pcwr | crrd | crwr
  deriving DecidableEq, Repr

/-- The number of each operation code (rule R58). -/
def codeOf : Opcode → BitVec 6
  | .nop => 0x00#6
  | .arinc => 0x04#6
  | .ardec => 0x05#6
  | .araddix => 0x06#6
  | .arsubix => 0x07#6
  | .accget => 0x08#6
  | .accset => 0x09#6
  | .cext => 0x0A#6
  | .prodget => 0x0B#6
  | .prodgetr => 0x0C#6
  | .prodset => 0x0D#6
  | .mul => 0x10#6
  | .mac => 0x11#6
  | .msub => 0x12#6
  | .mulx => 0x13#6
  | .sr16 => 0x18#6
  | .sr64 => 0x19#6
  | .srlz => 0x1A#6
  | .cond => 0x1B#6
  | .regrd => 0x20#6
  | .regrds => 0x21#6
  | .regwr => 0x22#6
  | .wbappend => 0x28#6
  | .wbflush => 0x29#6
  | .wbzero => 0x2A#6
  | .wbzerop => 0x2B#6
  | .step => 0x30#6
  | .loopend => 0x31#6
  | .pcrd => 0x32#6
  | .pcwr => 0x33#6
  | .crrd => 0x34#6
  | .crwr => 0x35#6

/-- The assigned operation codes in the order of rule R58. -/
def allOpcodes : List Opcode :=
  [.nop, .arinc, .ardec, .araddix, .arsubix,
   .accget, .accset, .cext, .prodget, .prodgetr, .prodset,
   .mul, .mac, .msub, .mulx,
   .sr16, .sr64, .srlz, .cond,
   .regrd, .regrds, .regwr,
   .wbappend, .wbflush, .wbzero, .wbzerop,
   .step, .loopend, .pcrd, .pcwr, .crrd, .crwr]

/-- The operation code a 6-bit number is assigned to, if any (rules R52 and R58). -/
def opcodeOf (c : BitVec 6) : Option Opcode :=
  allOpcodes.find? fun o => codeOf o == c

/-- The format of each command (the tables of rules R51 and R58). -/
def formatOf : Opcode → Format
  | .nop | .prodget | .prodgetr | .wbflush | .wbzero | .loopend | .pcrd | .crrd =>
    ⟨false, 0#5, 0#4, 0#40⟩                                   -- N
  | .arinc | .ardec | .araddix | .arsubix =>
    ⟨true, 0b00011#5, 0#4, 0#40⟩                              -- A
  | .accget | .regrds | .wbzerop => ⟨false, 0b00001#5, 0#4, 0#40⟩   -- C
  | .accset => ⟨false, 0b00001#5, 0#4, 0xFFFFFFFFFF#40⟩       -- CD
  | .regrd | .cext => ⟨false, 0b11111#5, 0#4, 0#40⟩           -- R
  | .regwr | .wbappend => ⟨false, 0b11111#5, 0#4, 0xFFFF#40⟩  -- RD
  | .prodset => ⟨false, 0#5, 0#4, 0xFFFFFFFFFF#40⟩            -- D40
  | .step | .pcwr | .crwr => ⟨false, 0#5, 0#4, 0xFFFF#40⟩     -- D16
  | .mul | .mac | .msub => ⟨true, 0b00011#5, 0#4, 0xFFFFFFFF#40⟩  -- M
  | .mulx => ⟨true, 0b00011#5, 0#4, 0#40⟩                     -- X
  | .sr16 => ⟨false, 0#5, 0b0111#4, 0xFFFF#40⟩                -- F16
  | .sr64 => ⟨false, 0#5, 0b0011#4, 0xFFFFFFFFFF#40⟩          -- F40
  | .srlz => ⟨false, 0#5, 0b0001#4, 0#40⟩                     -- F1
  | .cond => ⟨false, 0#5, 0b1111#4, 0#40⟩                     -- FC

/-- Every field bit the format does not use is 0 (rules R51 and R59). -/
def Format.fits (m : Format) (c : Fields) : Bool :=
  (m.q || !c.q) && decide (c.r &&& ~~~m.r = 0#5) && decide (c.f &&& ~~~m.f = 0#4)
    && decide (c.d &&& ~~~m.d = 0#40)

/-! ### The decoder -/

/-- Why a word is reserved (rule R59), by name. -/
inductive Reserved where
  /-- The operation code is not in the map of rule R58. -/
  | unassignedOp
  /-- The field `z` is not 0 (rule R56). -/
  | nonzeroZ
  /-- A field, or an upper bit of one, that the format does not use is not 0. -/
  | unusedFieldNonzero
  /-- `MUL`, `MAC` or `MSUB` with mode 3 (rule R90). -/
  | reservedMulMode
  deriving DecidableEq, Repr

/-- The operand accessors of rules R54, R55 and R57. -/
def Fields.n (c : Fields) : Four := fourOfBits (c.r.extractLsb' 0 2)
/-- The accumulator number of formats C and CD (rule R54). -/
def Fields.a (c : Fields) : Two := twoOfBit (c.r.getLsbD 0)
/-- The register of formats R and RD (rule R54). -/
def Fields.reg (c : Fields) : Reg := regOfIndex c.r
/-- The 16-bit value, or multiplier operand `a`, in `d[15:0]` (rule R57). -/
def Fields.lo16 (c : Fields) : Word := c.d.extractLsb' 0 16
/-- Multiplier operand `b` in `d[31:16]` (rule R57). -/
def Fields.hi16 (c : Fields) : Word := c.d.extractLsb' 16 16

/-- A command of format M, refused in mode 3 (rules R51 and R90). -/
def mulForm (c : Fields) (mk : MulMode → Bool → Word → Word → Instr) : Except Reserved Instr :=
  match modeOfBits (c.r.extractLsb' 0 2) with
  | some m => .ok (mk m c.q c.lo16 c.hi16)
  | none => .error .reservedMulMode

/-- The command an operation code and its fields name, once the unused fields are known to be 0 (rules R51, R58). -/
def commandOf (o : Opcode) (c : Fields) : Except Reserved Instr :=
  match o with
  | .nop => .ok .nop
  | .arinc => .ok (.arinc c.n c.q)
  | .ardec => .ok (.ardec c.n c.q)
  | .araddix => .ok (.araddix c.n c.q)
  | .arsubix => .ok (.arsubix c.n c.q)
  | .accget => .ok (.accget c.a)
  | .accset => .ok (.accset c.a c.d)
  | .cext => .ok (.cext c.reg)
  | .prodget => .ok .prodget
  | .prodgetr => .ok .prodgetr
  | .prodset => .ok (.prodset c.d)
  | .mul => mulForm c .mul
  | .mac => mulForm c .mac
  | .msub => mulForm c .msub
  | .mulx => .ok (.mulx (c.r.getLsbD 1) (c.r.getLsbD 0) c.q)
  | .sr16 => .ok (.sr16 c.lo16 (c.f.getLsbD 0) (c.f.getLsbD 1) (c.f.getLsbD 2))
  | .sr64 => .ok (.sr64 c.d (c.f.getLsbD 0) (c.f.getLsbD 1))
  | .srlz => .ok (.srlz (c.f.getLsbD 0))
  | .cond => .ok (.cond (condOfBits c.f))
  | .regrd => .ok (.regrd c.reg)
  | .regrds => .ok (.regrds c.a)
  | .regwr => .ok (.regwr c.reg c.lo16)
  | .wbappend => .ok (.wbappend c.reg c.lo16)
  | .wbflush => .ok .wbflush
  | .wbzero => .ok .wbzero
  | .wbzerop => .ok (.wbzerop c.a)
  | .step => .ok (.step c.lo16)
  | .loopend => .ok .loopend
  | .pcrd => .ok .pcrd
  | .pcwr => .ok (.pcwr c.lo16)
  | .crrd => .ok .crrd
  | .crwr => .ok (.crwr c.lo16)

/-- The decoder: the command a word is, or why it is reserved (rules R50 to R60). -/
def decode (w : BitVec 64) : Except Reserved Instr :=
  let c := fieldsOf w
  match opcodeOf c.op with
  | none => .error .unassignedOp
  | some o =>
    if c.z ≠ 0#8 then .error .nonzeroZ
    else if !(formatOf o).fits c then .error .unusedFieldNonzero
    else commandOf o c

/-! ### The encoder -/

/-- The fields of a command with no `q`, no `f` and `z = 0`. -/
def plainFields (o : Opcode) (r : BitVec 5) (d : BitVec 40) : Fields :=
  ⟨codeOf o, false, r, 0#4, 0#8, d⟩

/-- The fields of an address-unit command (format A). -/
def arFields (o : Opcode) (n : Four) (q : Bool) : Fields :=
  ⟨codeOf o, q, 0#3 ++ bitsOfFour n, 0#4, 0#8, 0#40⟩

/-- The fields of a multiplier command with operands (format M). -/
def mulFields (o : Opcode) (m : MulMode) (w : Bool) (a b : Word) : Fields :=
  ⟨codeOf o, w, 0#3 ++ bitsOfMode m, 0#4, 0#8, 0#8 ++ b ++ a⟩

/-- The fields of a flag command or `COND` (formats F16, F40, F1, FC). -/
def flagFields (o : Opcode) (f : BitVec 4) (d : BitVec 40) : Fields :=
  ⟨codeOf o, false, 0#5, f, 0#8, d⟩

/-- The `r` field of formats C and CD. -/
def accField (a : Two) : BitVec 5 := 0#4 ++ BitVec.ofBool (bitOfTwo a)

/-- A 16-bit value in `d[15:0]`, `d[39:16] = 0` (rule R57). -/
def dataField (v : Word) : BitVec 40 := 0#24 ++ v

/-- The fields of each command (rules R51 and R58). -/
def encodeFields : Instr → Fields
  | .nop => plainFields .nop 0#5 0#40
  | .arinc n q => arFields .arinc n q
  | .ardec n q => arFields .ardec n q
  | .araddix n q => arFields .araddix n q
  | .arsubix n q => arFields .arsubix n q
  | .accget a => plainFields .accget (accField a) 0#40
  | .accset a v => plainFields .accset (accField a) v
  | .cext i => plainFields .cext (indexOfReg i) 0#40
  | .prodget => plainFields .prodget 0#5 0#40
  | .prodgetr => plainFields .prodgetr 0#5 0#40
  | .prodset v => plainFields .prodset 0#5 v
  | .mul m w a b => mulFields .mul m w a b
  | .mac m w a b => mulFields .mac m w a b
  | .msub m w a b => mulFields .msub m w a b
  | .mulx sa sb w =>
    ⟨codeOf .mulx, w, 0#3 ++ BitVec.ofBool sa ++ BitVec.ofBool sb, 0#4, 0#8, 0#40⟩
  | .sr16 x c o f =>
    flagFields .sr16 (0#1 ++ BitVec.ofBool f ++ BitVec.ofBool o ++ BitVec.ofBool c) (dataField x)
  | .sr64 x c o => flagFields .sr64 (0#2 ++ BitVec.ofBool o ++ BitVec.ofBool c) x
  | .srlz b => flagFields .srlz (0#3 ++ BitVec.ofBool b) 0#40
  | .cond cc => flagFields .cond (bitsOfCond cc) 0#40
  | .regrd i => plainFields .regrd (indexOfReg i) 0#40
  | .regrds a => plainFields .regrds (accField a) 0#40
  | .regwr i v => plainFields .regwr (indexOfReg i) (dataField v)
  | .wbappend i v => plainFields .wbappend (indexOfReg i) (dataField v)
  | .wbflush => plainFields .wbflush 0#5 0#40
  | .wbzero => plainFields .wbzero 0#5 0#40
  | .wbzerop a => plainFields .wbzerop (accField a) 0#40
  | .step len => plainFields .step 0#5 (dataField len)
  | .loopend => plainFields .loopend 0#5 0#40
  | .pcrd => plainFields .pcrd 0#5 0#40
  | .pcwr t => plainFields .pcwr 0#5 (dataField t)
  | .crrd => plainFields .crrd 0#5 0#40
  | .crwr v => plainFields .crwr 0#5 (dataField v)

/-- The encoder: the one 64-bit word of a command (rules R50, R51, R58). -/
def encode (i : Instr) : BitVec 64 := wordOf (encodeFields i)

/-! ### The opcode table -/

/-- The operation code of each command (rule R58). -/
def opOf : Instr → Opcode
  | .nop => .nop
  | .arinc _ _ => .arinc
  | .ardec _ _ => .ardec
  | .araddix _ _ => .araddix
  | .arsubix _ _ => .arsubix
  | .accget _ => .accget
  | .accset _ _ => .accset
  | .cext _ => .cext
  | .prodget => .prodget
  | .prodgetr => .prodgetr
  | .prodset _ => .prodset
  | .mul _ _ _ _ => .mul
  | .mac _ _ _ _ => .mac
  | .msub _ _ _ _ => .msub
  | .mulx _ _ _ => .mulx
  | .sr16 _ _ _ _ => .sr16
  | .sr64 _ _ _ => .sr64
  | .srlz _ => .srlz
  | .cond _ => .cond
  | .regrd _ => .regrd
  | .regrds _ => .regrds
  | .regwr _ _ => .regwr
  | .wbappend _ _ => .wbappend
  | .wbflush => .wbflush
  | .wbzero => .wbzero
  | .wbzerop _ => .wbzerop
  | .step _ => .step
  | .loopend => .loopend
  | .pcrd => .pcrd
  | .pcwr _ => .pcwr
  | .crrd => .crrd
  | .crwr _ => .crwr

/-- `match` and `mask` of the command's row of `spec/opcode_table.json`, as that file prints them. -/
def tableRow : Opcode → BitVec 64 × BitVec 64
  | .nop => (0x0000000000000000#64, 0xFFFFFFFFFFFFFFFF#64)
  | .arinc => (0x1000000000000000#64, 0xFDCFFFFFFFFFFFFF#64)
  | .ardec => (0x1400000000000000#64, 0xFDCFFFFFFFFFFFFF#64)
  | .araddix => (0x1800000000000000#64, 0xFDCFFFFFFFFFFFFF#64)
  | .arsubix => (0x1C00000000000000#64, 0xFDCFFFFFFFFFFFFF#64)
  | .accget => (0x2000000000000000#64, 0xFFEFFFFFFFFFFFFF#64)
  | .accset => (0x2400000000000000#64, 0xFFEFFF0000000000#64)
  | .cext => (0x2800000000000000#64, 0xFE0FFFFFFFFFFFFF#64)
  | .prodget => (0x2C00000000000000#64, 0xFFFFFFFFFFFFFFFF#64)
  | .prodgetr => (0x3000000000000000#64, 0xFFFFFFFFFFFFFFFF#64)
  | .prodset => (0x3400000000000000#64, 0xFFFFFF0000000000#64)
  | .mul => (0x4000000000000000#64, 0xFDCFFFFF00000000#64)
  | .mac => (0x4400000000000000#64, 0xFDCFFFFF00000000#64)
  | .msub => (0x4800000000000000#64, 0xFDCFFFFF00000000#64)
  | .mulx => (0x4C00000000000000#64, 0xFDCFFFFFFFFFFFFF#64)
  | .sr16 => (0x6000000000000000#64, 0xFFF8FFFFFFFF0000#64)
  | .sr64 => (0x6400000000000000#64, 0xFFFCFF0000000000#64)
  | .srlz => (0x6800000000000000#64, 0xFFFEFFFFFFFFFFFF#64)
  | .cond => (0x6C00000000000000#64, 0xFFF0FFFFFFFFFFFF#64)
  | .regrd => (0x8000000000000000#64, 0xFE0FFFFFFFFFFFFF#64)
  | .regrds => (0x8400000000000000#64, 0xFFEFFFFFFFFFFFFF#64)
  | .regwr => (0x8800000000000000#64, 0xFE0FFFFFFFFF0000#64)
  | .wbappend => (0xA000000000000000#64, 0xFE0FFFFFFFFF0000#64)
  | .wbflush => (0xA400000000000000#64, 0xFFFFFFFFFFFFFFFF#64)
  | .wbzero => (0xA800000000000000#64, 0xFFFFFFFFFFFFFFFF#64)
  | .wbzerop => (0xAC00000000000000#64, 0xFFEFFFFFFFFFFFFF#64)
  | .step => (0xC000000000000000#64, 0xFFFFFFFFFFFF0000#64)
  | .loopend => (0xC400000000000000#64, 0xFFFFFFFFFFFFFFFF#64)
  | .pcrd => (0xC800000000000000#64, 0xFFFFFFFFFFFFFFFF#64)
  | .pcwr => (0xCC00000000000000#64, 0xFFFFFFFFFFFF0000#64)
  | .crrd => (0xD000000000000000#64, 0xFFFFFFFFFFFFFFFF#64)
  | .crwr => (0xD400000000000000#64, 0xFFFFFFFFFFFF0000#64)

/-- The row's constraint beside `match` and `mask`: mode 3 of `MUL`, `MAC`, `MSUB` is reserved (rule R90). -/
def rowConstraint (o : Opcode) (w : BitVec 64) : Bool :=
  match o with
  | .mul | .mac | .msub => decide (w.extractLsb' 52 2 ≠ 3#2)
  | _ => true

/-- What the decoder reads from the `nbits` bits of `w`, the bits above them 0 (`none` for a reserved word). -/
def decodeTableWord (nbits w : Nat) : Option Instr :=
  match decode (BitVec.ofNat 64 (w % 2 ^ nbits)) with
  | .ok i => some i
  | .error _ => none

end Sys2Proof
end

