-- ==== Sys2Proof/Config.lean ====
section
/-! DEFINITION. What an implementation of the block fixes (the OPEN parameters of `00_scope.md` rule R7), and the
free values. The parameters are plain data that State carries and no step changes, so a statement about every
state is a statement about every choice of them, as the spec asks of a model ("takes it as an argument"). -/

namespace Sys2Proof

/-- The OPEN parameters of rule R7 (`93_implementation_defined.md` U6). `PRECISE` is not here: it is sampled from
the `cfg_precise` input at every reset (rule R147) and so is held in State. -/
structure Config where
  /-- `STACK_DEPTH`: backing entries beneath each stack's top register (rule R27). -/
  stackDepth : Nat
  /-- `WB_CAPACITY`: most entries the write-back queue holds (rule R106). -/
  wbCapacity : Nat
  /-- `RESET_PC`: the program counter after reset (rule R36). -/
  resetPc : Word
  /-- `CR_HALT_BIT`: position of the halt bit in `CR` (rule R26). -/
  crHaltBit : Nat
  /-- `CR_INIT_VALUE`: the literal host write that sets the init hint (rule R121). -/
  crInitValue : Word
  /-- `CR_INIT_STATUS_BIT`: the bit an init write ORs into `CR` (rule R121). -/
  crInitStatusBit : Nat
  /-- `CR_PCTOP_STATUS_BIT`: the `CR` bit a host read overwrites with `PC[15]` (rule R120). -/
  crPctopStatusBit : Nat
  deriving DecidableEq, Repr

/-- The recommended values of rule R7, and `RESET_PC = 0x0000`, for which the spec recommends nothing.
DESIGN CHOICE (log entry 2): unsafe for a statement that rests on them; none does. -/
def Config.recommended : Config where
  stackDepth := 4
  wbCapacity := 4
  resetPc := 0x0000#16
  crHaltBit := 2
  crInitValue := 0x0004#16
  crInitStatusBit := 11
  crPctopStatusBit := 11

/-- The free value of a register that a reset DURING a run leaves unspecified (rules R36, R37, R147; log entry 4):
which reset of the run it is, which register, and what that register held before. It has no body, so nothing can
be proved of it: it stands for every value, the old one included. -/
opaque Config.freeWord : Nat → Nat → Word → Word

/-- The value `State.reset` gives every 16-bit register whose reset value the spec calls unspecified (rule R36).
Not zero, because rule R37 says a model "must not pick zero". DESIGN CHOICE (log entry 1): unsafe for a statement
that rests on it; none does. -/
def Config.resetFill : Word := 0xA5A5#16

end Sys2Proof
end

