-- ==== Sys2Proof/WellFormed.lean ====
section
/-! DEFINITION. The well-formedness checks. A command needs none: the types of `Syntax.lean` admit exactly the
operands an encoding admits, and a command WORD that is no command is refused by name in `Decode.lean`. What needs a
check is the choice of the open parameters (`93_implementation_defined.md` U6 states the constraints). -/

namespace Sys2Proof

/-- A bit position of `CR` that a parameter may name: 1 to 15, because bit 0 is the reset request (U6). -/
def Config.bitPositionOk (b : Nat) : Bool := decide (1 ≤ b) && decide (b ≤ 15)

/-- The constraints U6 puts on the open parameters of rule R7. -/
def Config.valid (c : Config) : Bool :=
  decide (1 ≤ c.stackDepth) && decide (1 ≤ c.wbCapacity)
    && Config.bitPositionOk c.crHaltBit && Config.bitPositionOk c.crInitStatusBit
    && Config.bitPositionOk c.crPctopStatusBit
    && !c.crInitValue.getLsbD 0 && decide (c.crInitValue ≠ 0#16)

end Sys2Proof
end

