-- ==== Sys2Proof/Machine/State.lean ====
section
/-! DEFINITION. The state of the block as plain data (`10_state.md` rule R9), the input clocks it reads
(`00_scope.md` rule R8), the reasons a step can stop, and the state after reset (rule R36). -/

namespace Sys2Proof.Machine

/-- An accumulator: three 16-bit windows. The high one is the sign extension of its low 8 bits (rules R10 to R13). -/
structure Acc where
  h : Word
  m : Word
  l : Word
  deriving DecidableEq, Repr

/-- The product register: four plain 16-bit fields (rule R14). -/
structure Product where
  h : Word
  m : Word
  m2 : Word
  l : Word
  deriving DecidableEq, Repr

/-- An accumulator-extension register: two 16-bit halves (rule R17). -/
structure Ext where
  h : Word
  l : Word
  deriving DecidableEq, Repr

/-- A hardware stack: the top register `ST[k]`, the backing store `STMEM[k]` and the pointer `STPTR[k]` (rule R27). -/
structure Stack where
  top : Word
  mem : List Word
  ptr : Nat
  deriving DecidableEq, Repr

/-- What the input ports present in one clock (rule R8). -/
structure InputClock where
  /-- `rst` -/
  rst : Bool
  /-- `cfg_precise` -/
  cfgPrecise : Bool
  /-- `cmd_valid` -/
  cmdValid : Bool
  /-- `cmd` -/
  cmd : BitVec 64
  deriving DecidableEq, Repr

/-- The block's state (rule R9), followed by the model's own fields: the open parameters, the input ports and the
record of the response ports, which rule R9 says are not state of the block. -/
structure State where
  /-- The accumulators (R10). -/
  ac : Bank2 Acc
  /-- The product register (R14). -/
  prod : Product
  /-- The address registers (R16). -/
  ar : Bank4 Word
  /-- The index registers (R16). -/
  ix : Bank4 Word
  /-- The wrap-mask registers (R16). -/
  wr : Bank4 Word
  /-- The accumulator-extension registers (R17). -/
  ax : Bank2 Ext
  /-- The status register (R20, R21). -/
  sr : Word
  /-- The control register (R25, R26). -/
  cr : Word
  /-- The four stacks (R27). -/
  st : Bank4 Stack
  /-- The program counter (R18). -/
  pc : Word
  /-- The step counter, unbounded (R19). -/
  stepCnt : Nat
  /-- The write-back queue in append order (R30). -/
  wbq : List (Reg × Word)
  /-- `INIT_HINT` (R31). -/
  initHint : Bool
  /-- The sticky fault bit `F_WBOVF` (R32, R135). -/
  fWbovf : Bool
  /-- The sticky fault bit `F_WBPENDING` (R32, R136). -/
  fWbpending : Bool
  /-- The sticky warning bit `W_BADCMD` (R32, R137). -/
  wBadcmd : Bool
  /-- MODEL: `PRECISE`, the value sampled at the last reset (R7, R147). -/
  precise : Bool
  /-- MODEL: the level of the input `cfg_precise` in the current clock (R8). -/
  cfgPrecise : Bool
  /-- MODEL: the input clocks still to come; past the end of the list nothing is presented (log entry 3). -/
  inputs : List InputClock
  /-- MODEL: `rsp_data` of the most recent command (R8, log entry 7). -/
  rspData : Long
  /-- MODEL: `rsp_cond` of the most recent command (R8, log entry 7). -/
  rspCond : Bool
  /-- MODEL: the open parameters (R7), which no step changes. -/
  cfg : Config
  /-- MODEL: how many resets the run has taken, the index of the free values they leave (log entry 4). -/
  resetCount : Nat
  deriving DecidableEq, Repr

/-- The two fault conditions of the block (rules R135 and R136). They are sticky STATE bits, not stops of the
model: see `Fault`. -/
inductive StickyFault where
  /-- `F_WBOVF`: an append to a full write-back queue. -/
  | wbovf
  /-- `F_WBPENDING`: a step begun with queued writes outstanding. -/
  | wbpending
  deriving DecidableEq, Repr

/-- The reasons a step of the model stops. The block itself takes no traps (rule R129) and its two faults are
states it stays in (rule R134), so the one reason is a configuration that is no hardware of the spec. -/
inductive Fault where
  /-- Raised by `clock` when the open parameters break a constraint of U6. Safe: the spec describes no such block,
  and no step leads from a valid configuration to an invalid one. -/
  | invalidConfig
  deriving DecidableEq, Repr

/-- The refusals. No meaning answers with one: every command of the table is modelled. -/
inductive Refusal where
  /-- Raised by an arm of `exec` whose instruction has no meaning yet (none has it). Safe. -/
  | notModelled (mnemonic : String)
  deriving DecidableEq, Repr

/-- What a step or a meaning answers. -/
abbrev Outcome := Host.Outcome State Fault Refusal

/-- The machine right after reset (rule R36): the stated values where the rule states one; `Config.resetFill`, with
the high windows sign-extended, where it says unspecified (log entry 1); the recommended parameters (log entry 2);
no input presented yet (log entry 3). -/
def State.reset : State where
  ac := ⟨⟨0xFFA5#16, Config.resetFill, Config.resetFill⟩, ⟨0xFFA5#16, Config.resetFill, Config.resetFill⟩⟩
  prod := ⟨Config.resetFill, Config.resetFill, Config.resetFill, Config.resetFill⟩
  ar := ⟨Config.resetFill, Config.resetFill, Config.resetFill, Config.resetFill⟩
  ix := ⟨Config.resetFill, Config.resetFill, Config.resetFill, Config.resetFill⟩
  wr := ⟨Config.resetFill, Config.resetFill, Config.resetFill, Config.resetFill⟩
  ax := ⟨⟨Config.resetFill, Config.resetFill⟩, ⟨Config.resetFill, Config.resetFill⟩⟩
  sr := Config.resetFill
  cr := Config.resetFill
  st :=
    let k : Stack := ⟨Config.resetFill, List.replicate Config.recommended.stackDepth Config.resetFill, 0⟩
    ⟨k, k, k, k⟩
  pc := Config.recommended.resetPc
  stepCnt := 0
  wbq := []
  initHint := false
  fWbovf := false
  fWbpending := false
  wBadcmd := false
  precise := false
  cfgPrecise := false
  inputs := []
  rspData := 0#40
  rspCond := false
  cfg := Config.recommended
  resetCount := 0

end Sys2Proof.Machine
end

