-- ==== Sys2Proof/Machine/Flags.lean ====
section
/-! DEFINITION. The status register: the bits of rule R21, the three flag updates (R92 to R94) and the condition
table (R95, R96). -/

namespace Sys2Proof.Machine

/-! ### The named bits of `SR` (rule R21) -/

/-- `SR.C`, carry. -/
def srC (sr : Word) : Bool := sr.getLsbD 0
/-- `SR.O`, overflow. -/
def srO (sr : Word) : Bool := sr.getLsbD 1
/-- `SR.AZ`, arithmetic-zero. -/
def srAZ (sr : Word) : Bool := sr.getLsbD 2
/-- `SR.S`, sign. -/
def srS (sr : Word) : Bool := sr.getLsbD 3
/-- `SR.AS`, over-S32. -/
def srAS (sr : Word) : Bool := sr.getLsbD 4
/-- `SR.TB`, top-two-bits-equal. -/
def srTB (sr : Word) : Bool := sr.getLsbD 5
/-- `SR.LZ`, logic-zero. -/
def srLZ (sr : Word) : Bool := sr.getLsbD 6
/-- `SR.AM`, multiply-modify mode. -/
def srAM (sr : Word) : Bool := sr.getLsbD 13
/-- `SR.SXM`, 40-bit mode. -/
def srSXM (sr : Word) : Bool := sr.getLsbD 14
/-- `SR.SU`, multiply-unsigned mode. -/
def srSU (sr : Word) : Bool := sr.getLsbD 15

/-- `CMP_MASK`, the comparison-flag group (rule R22). -/
def cmpMask : Word := 0x003F#16

/-- `t | mask` when the condition holds, else `t`: one line of the updates of rules R92 and R93. -/
def orIf (b : Bool) (mask t : Word) : Word := if b then t ||| mask else t

/-- `fits32(n)`: the long value lies in -2^31 .. 2^31 - 1 (rule R157). -/
def fits32 (x : Long) : Bool := decide (-2 ^ 31 ≤ x.toInt) && decide (x.toInt ≤ 2 ^ 31 - 1)

/-- The comparison-flag group cleared, then `C` and `O` (with the sticky `OS`) from the caller's booleans and the
four result flags as given (the shared shape of rules R92 and R93). -/
def updateFlags (sr : Word) (c o zero neg over32 tb : Bool) : Word :=
  orIf tb 0x0020#16 (orIf over32 0x0010#16 (orIf neg 0x0008#16 (orIf zero 0x0004#16
    (orIf o (0x0002#16 ||| 0x0080#16) (orIf c 0x0001#16 (sr &&& ~~~cmpMask))))))

/-- `SR` after `SR16` (rule R92). -/
def sr16Flags (sr x : Word) (c o s : Bool) : Word :=
  updateFlags sr c o (decide (x = 0#16)) (x.getLsbD 15) s (x.getLsbD 15 == x.getLsbD 14)

/-- `SR` after `SR64` (rule R93). -/
def sr64Flags (sr : Word) (x : Long) (c o : Bool) : Word :=
  updateFlags sr c o (decide (x = 0#40)) (decide (x.toInt < 0)) (!fits32 x) (x.getLsbD 31 == x.getLsbD 30)

/-- `SR` after `SRLZ` (rule R94). -/
def srlzFlags (sr : Word) (b : Bool) : Word :=
  if b then sr ||| 0x0040#16 else sr &&& ~~~0x0040#16

/-- `less`: the exclusive-or of the raw bits 1 and 3 of the status word (rule R95). -/
def srLess (sr : Word) : Bool := sr.getLsbD 1 ^^ sr.getLsbD 3

/-- The composite "condition A" of rule R96. -/
def srA (sr : Word) : Bool := (srAS sr || srTB sr) && !srAZ sr

/-- `CondTrue(cc)` (rule R96). -/
def condTrue (cc : Cond) (sr : Word) : Bool :=
  match cc with
  | .ge => !srLess sr
  | .l => srLess sr
  | .g => !srLess sr && !srAZ sr
  | .le => srLess sr || srAZ sr
  | .nz => !srAZ sr
  | .z => srAZ sr
  | .nc => !srC sr
  | .c => srC sr
  | .nas => !srAS sr
  | .as => srAS sr
  | .a => srA sr
  | .na => !srA sr
  | .lnz => !srLZ sr
  | .lz => srLZ sr
  | .o => srO sr
  | .t => true

end Sys2Proof.Machine
end

