-- ==== Sys2Proof/Machine/Operands.lean ====
section
/-! DEFINITION. The values the commands compute with: the long values of the accumulators and of the product register
and their split over the windows (R11, R15, R76, R84), the exact product (R83), the operand selection of `MULX`
(R88), and the four address functions (R65 to R68). -/

namespace Sys2Proof.Machine

/-! ### Windows and long values -/

/-- `sext_16(v[7:0])`: how a high window is stored (rule R12). -/
def sext8 (v : Word) : Word := (v.extractLsb' 0 8).signExtend 16

/-- `Acc(a) = s40(h[7:0] : m : l)` (rule R11). -/
def Acc.long (a : Acc) : Long := a.h.extractLsb' 0 8 ++ a.m ++ a.l

/-- The windows of an accumulator written with a long value (rule R76). -/
def accOfLong (v : Long) : Acc where
  h := (v.extractLsb' 32 8).signExtend 16
  m := v.extractLsb' 16 16
  l := v.extractLsb' 0 16

/-- `wrap40(n)`: the long value congruent to the integer `n` (rule R157). -/
def wrap40 (n : Int) : Long := BitVec.ofInt 40 n

/-- `Prod()`: the middle fields summed exactly, the whole reduced modulo 2^40 (rule R15). -/
def Product.long (p : Product) : Long :=
  wrap40 ((p.h.extractLsb' 0 8).toInt * 2 ^ 32 + ((p.m.toNat : Int) + (p.m2.toNat : Int)) * 2 ^ 16 + (p.l.toNat : Int))

/-- The fields of the product register written with a long value (rules R80 and R84). -/
def productOfLong (v : Long) : Product where
  h := (v.extractLsb' 32 8).zeroExtend 16
  m := v.extractLsb' 16 16
  m2 := 0x0000#16
  l := v.extractLsb' 0 16

/-- The product value rounded to a multiple of 0x10000, ties to the multiple whose bit 16 is 0 (rule R79). -/
def roundLong (p : Long) : Long :=
  let t : Int := if p.getLsbD 16 then p.toInt + 0x8000 else p.toInt + 0x7FFF
  wrap40 t &&& ~~~0xFFFF#40

/-! ### The multiplier -/

/-- `MulProd(a, b, mode)` before the doubling, with the mode bit `SR.SU` (rule R83). -/
def rawProduct (su : Bool) (mode : MulMode) (a b : Word) : Int :=
  match mode, su with
  | .uu, true => (a.toNat : Int) * (b.toNat : Int)
  | .us, true => (a.toNat : Int) * b.toInt
  | _, _ => a.toInt * b.toInt

/-- `MulProd(a, b, mode)`: the exact product, doubled unless `SR.AM` is set (rule R83). -/
def mulProd (su am : Bool) (mode : MulMode) (a b : Word) : Int :=
  if am then rawProduct su mode a b else 2 * rawProduct su mode a b

/-- The half of an extension register that a selector bit names (rule R88). -/
def Ext.half (x : Ext) (high : Bool) : Word := if high then x.h else x.l

/-- The row of the `MULX` table (rule R88): the product of the selected halves in the row's mode and order. -/
def mulxProd (su am : Bool) (sa sb : Bool) (v1 v2 : Word) : Int :=
  match sa, sb with
  | false, false => mulProd su am .uu v1 v2
  | false, true => mulProd su am .us v1 v2
  | true, false => mulProd su am .us v2 v1
  | true, true => mulProd su am .ss v1 v2

/-! ### The address functions, on 32-bit unsigned values (rule R64) -/

/-- The mask `(wr | 1) << 1` of the wrap tests (rules R64 to R68). -/
def wrapMx (wr : BitVec 32) : BitVec 32 := (wr ||| 1#32) <<< 1

/-- `Inc(ar, wr)` (rule R65). -/
def incAddr (ar16 wr16 : Word) : Word :=
  let ar := ar16.zeroExtend 32
  let wr := wr16.zeroExtend 32
  let nar := ar + 1#32
  let nar := if wrapMx wr < (nar ^^^ ar) then nar - (wr + 1#32) else nar
  nar.extractLsb' 0 16

/-- `Dec(ar, wr)` (rule R66): the candidate already holds the correction, the test removes it. -/
def decAddr (ar16 wr16 : Word) : Word :=
  let ar := ar16.zeroExtend 32
  let wr := wr16.zeroExtend 32
  let nar := ar + wr
  let nar := if wr < ((nar ^^^ ar) &&& wrapMx wr) then nar - (wr + 1#32) else nar
  nar.extractLsb' 0 16

/-- `AddIx(ar, wr, ixr)` (rule R67). -/
def addIxAddr (ar16 wr16 ixr : Word) : Word :=
  let ar := ar16.zeroExtend 32
  let wr := wr16.zeroExtend 32
  let ixu := ixr.signExtend 32
  let mx := wrapMx wr
  let nar := ar + ixu
  let dar := (nar ^^^ ar ^^^ ixu) &&& mx
  let nar :=
    if 0 ≤ ixr.toInt then
      if wr < dar then nar - (wr + 1#32) else nar
    else
      if (((nar + wr + 1#32) ^^^ nar) &&& dar) ≤ wr then nar + wr + 1#32 else nar
  nar.extractLsb' 0 16

/-- `SubIx(ar, wr, ixr)` (rule R68). -/
def subIxAddr (ar16 wr16 ixr : Word) : Word :=
  let ar := ar16.zeroExtend 32
  let wr := wr16.zeroExtend 32
  let ixu := ixr.signExtend 32
  let nixu := ~~~ixu
  let mx := wrapMx wr
  let nar := ar - ixu
  let dar := (nar ^^^ ar ^^^ nixu) &&& mx
  let nar :=
    if 0xFFFF8000#32 < ixu then
      if wr < dar then nar - (wr + 1#32) else nar
    else
      if (((nar + wr + 1#32) ^^^ nar) &&& dar) ≤ wr then nar + wr + 1#32 else nar
  nar.extractLsb' 0 16

end Sys2Proof.Machine
end

