-- ==== Sys2Proof/Machine/Ops.lean ====
section
/-! DEFINITION. The named operations the meanings share: the response ports (R8), raising a sticky fault (R134), the
reserved word (R59), the stacks (R27, R28), the generic register accessors (R125, R126), the queue (R100, R102, R104,
R105), reset (R147), and the bits of `CR` (R26). -/

namespace Sys2Proof.Machine

/-! ### Responses, faults, warnings -/

/-- The response of a command: `rsp_data`, and `rsp_cond = 0` as for every command but `COND` (rule R8). -/
def respond (v : Long) (s : State) : State := { s with rspData := v, rspCond := false }

/-- Raising a sticky fault, the block's one form of exception (rule R134): the bit is set, the response is zero and
nothing else changes. There is no return from it but a reset (rule R143). -/
def raiseFault (f : StickyFault) (s : State) : State :=
  match f with
  | .wbovf => respond 0#40 { s with fWbovf := true }
  | .wbpending => respond 0#40 { s with fWbpending := true }

/-- Some fault bit is set (rule R134). -/
def faulted (s : State) : Bool := s.fWbovf || s.fWbpending

/-- A command ignored because a fault bit is set: no state changes, the response is zero (rule R134). -/
def ignoreCommand (s : State) : State := respond 0#40 s

/-- A reserved command word: a no-operation that sets the sticky warning (rules R59 and R137). -/
def badCommand (s : State) : State := respond 0#40 { s with wBadcmd := true }

/-! ### The output ports (rule R8) -/

/-- The output `halt`: the halt bit of `CR` (rules R26 and R119). -/
def haltOut (s : State) : Bool := s.cr.getLsbD s.cfg.crHaltBit

/-- The output `fault[1:0]`: `F_WBOVF` is bit 0, `F_WBPENDING` bit 1 (rule R134). -/
def faultOut (s : State) : BitVec 2 := BitVec.ofBool s.fWbpending ++ BitVec.ofBool s.fWbovf

/-- The output `warn`: `W_BADCMD` (rule R137). -/
def warnOut (s : State) : Bool := s.wBadcmd

/-! ### Stacks (rules R27 and R28) -/

/-- `Push(k, v)` on one stack of the given depth (rule R27). -/
def pushStack (depth : Nat) (v : Word) (k : Stack) : Stack :=
  let p := (k.ptr + 1) % depth
  { top := v, mem := k.mem.set p k.top, ptr := p }

/-- The stack after `Pop(k)`; the value popped is the old top (rule R28). A pointer outside the backing store, which
no run reaches, reads 0 (log entry 11). -/
def popStack (depth : Nat) (k : Stack) : Stack :=
  { top := k.mem.getD k.ptr 0#16, mem := k.mem, ptr := (k.ptr + depth - 1) % depth }

/-- `Push(k, v)` (rule R27). -/
def push (k : Four) (v : Word) (s : State) : State :=
  { s with st := s.st.set k (pushStack s.cfg.stackDepth v (s.st.get k)) }

/-- `Pop(k)` with its result left to the reader of the old top (rule R28). -/
def pop (k : Four) (s : State) : State :=
  { s with st := s.st.set k (popStack s.cfg.stackDepth (s.st.get k)) }

/-! ### The generic register accessors -/

/-- The value `RegRead(i)` returns (rule R125). -/
def regValue (i : Reg) (s : State) : Word :=
  match i with
  | .ar n => s.ar.get n
  | .ix n => s.ix.get n
  | .wr n => s.wr.get n
  | .st k => (s.st.get k).top
  | .ach a => (s.ac.get a).h
  | .cr => s.cr
  | .sr => s.sr
  | .prodl => s.prod.l
  | .prodm => s.prod.m
  | .prodh => s.prod.h
  | .prodm2 => s.prod.m2
  | .axl x => (s.ax.get x).l
  | .axh x => (s.ax.get x).h
  | .acl a => (s.ac.get a).l
  | .acm a => (s.ac.get a).m

/-- The state after `RegRead(i)`: a stack index pops, no other has a side effect (rule R125). -/
def afterRead (i : Reg) (s : State) : State :=
  match i with
  | .st k => pop k s
  | .ar _ | .ix _ | .wr _ | .ach _ | .cr | .sr | .prodl | .prodm | .prodh | .prodm2
  | .axl _ | .axh _ | .acl _ | .acm _ => s

/-- `RegWrite(i, v)` (rule R126). -/
def regWrite (i : Reg) (v : Word) (s : State) : State :=
  match i with
  | .ar n => { s with ar := s.ar.set n v }
  | .ix n => { s with ix := s.ix.set n v }
  | .wr n => { s with wr := s.wr.set n v }
  | .st k => push k v s
  | .ach a => { s with ac := s.ac.set a { s.ac.get a with h := sext8 v } }
  | .cr => { s with cr := v }
  | .sr => { s with sr := v }
  | .prodl => { s with prod := { s.prod with l := v } }
  | .prodm => { s with prod := { s.prod with m := v } }
  | .prodh => { s with prod := { s.prod with h := v } }
  | .prodm2 => { s with prod := { s.prod with m2 := v } }
  | .axl x => { s with ax := s.ax.set x { s.ax.get x with l := v } }
  | .axh x => { s with ax := s.ax.set x { s.ax.get x with h := v } }
  | .acl a => { s with ac := s.ac.set a { s.ac.get a with l := v } }
  | .acm a => { s with ac := s.ac.set a { s.ac.get a with m := v } }

/-! ### The write-back queue -/

/-- `QAppend(i, v)`, `none` when the queue already holds `WB_CAPACITY` entries (rule R100). -/
def qAppend (i : Reg) (v : Word) (s : State) : Option State :=
  if s.wbq.length = s.cfg.wbCapacity then none else some { s with wbq := s.wbq ++ [(i, v)] }

/-- A command that queues a register write and answers `rsp`: the append, or `F_WBOVF` (rules R100 and R135). -/
def queueWrite (i : Reg) (v : Word) (rsp : Long) (s : State) : State :=
  match qAppend i v s with
  | some s' => respond rsp s'
  | none => raiseFault .wbovf s

/-- One entry of a flush: overwritten, or in precise mode ORed with the current value, which the generic read
accessor takes with its side effects (rule R102). -/
def flushEntry (s : State) (e : Reg × Word) : State :=
  if s.precise then regWrite e.1 (regValue e.1 s ||| e.2) (afterRead e.1 s) else regWrite e.1 e.2 s

/-- Every entry of a list applied in order (rule R102). -/
def flushEntries (q : List (Reg × Word)) (s : State) : State := q.foldl flushEntry s

/-- Zero written to the target of every entry of a list, in order (rule R104). -/
def zeroEntries (q : List (Reg × Word)) (s : State) : State :=
  q.foldl (fun t e => regWrite e.1 0#16 t) s

/-- The index names a window of accumulator `a` (rule R105). -/
def windowOf (a : Two) (i : Reg) : Bool := i == .acl a || i == .acm a || i == .ach a

/-- Zero written to the target of every entry of a list but those of accumulator `a`'s windows (rule R105). -/
def zeroEntriesBut (a : Two) (q : List (Reg × Word)) (s : State) : State :=
  q.foldl (fun t e => if windowOf a e.1 then t else regWrite e.1 0#16 t) s

/-! ### The product register and the address registers -/

/-- The end of every multiplier command: the product register written when `w` is set, the result answered
(rules R82 and R84). -/
def finishMul (res : Long) (w : Bool) (s : State) : State :=
  respond res (if w then { s with prod := productOfLong res } else s)

/-- The end of every address-unit command: the address written, or queued, and answered (rule R64). -/
def finishAddr (n : Four) (q : Bool) (v : Word) (s : State) : State :=
  if q then queueWrite (.ar n) v (v.zeroExtend 40) s
  else respond (v.zeroExtend 40) { s with ar := s.ar.set n v }

/-! ### The control register -/

/-- Bit `b` of a register set or cleared (rules R120 and R121). -/
def putBit (v : Word) (b : Nat) (x : Bool) : Word :=
  if x then v ||| (1#16 <<< b) else v &&& ~~~(1#16 <<< b)

/-! ### Reset (rule R147) -/

/-- The free value of register number `k` of the file after the next reset (log entry 4). -/
def drawn (s : State) (k : Nat) (old : Word) : Word := Config.freeWord s.resetCount k old

/-- An accumulator after reset: unspecified, its high window a sign-extended 8-bit value (rule R147). -/
def resetAcc (s : State) (k : Nat) (a : Acc) : Acc :=
  ⟨sext8 (drawn s k a.h), drawn s (k + 1) a.m, drawn s (k + 2) a.l⟩

/-- Four like registers after reset: unspecified (rule R147). -/
def resetBank (s : State) (k : Nat) (b : Bank4 Word) : Bank4 Word :=
  ⟨drawn s k b.r0, drawn s (k + 1) b.r1, drawn s (k + 2) b.r2, drawn s (k + 3) b.r3⟩

/-- An extension register after reset: unspecified (rule R147). -/
def resetExt (s : State) (k : Nat) (x : Ext) : Ext := ⟨drawn s k x.h, drawn s (k + 1) x.l⟩

/-- A stack after reset: top and backing store unspecified, pointer 0 (rules R36 and R147). Stack `k` of the four
draws its top at number `28 + k` and backing entry `j` at number `32 + 4 * j + k`. -/
def resetStack (s : State) (k : Nat) (x : Stack) : Stack where
  top := drawn s (28 + k) x.top
  mem := (List.range s.cfg.stackDepth).map fun j => drawn s (32 + 4 * j + k) (x.mem.getD j 0#16)
  ptr := 0

/-- What reset does (rules R36, R147 and R148): the stated values, a free value in every register the rule leaves
unspecified, `PRECISE` sampled from its input, the queue emptied without a flush. The inputs to come, the response
record and the open parameters are no state of the block. -/
def performReset (s : State) : State :=
  { s with
    ac := ⟨resetAcc s 0 s.ac.r0, resetAcc s 3 s.ac.r1⟩
    prod := ⟨drawn s 6 s.prod.h, drawn s 7 s.prod.m, drawn s 8 s.prod.m2, drawn s 9 s.prod.l⟩
    ar := resetBank s 10 s.ar
    ix := resetBank s 14 s.ix
    wr := resetBank s 18 s.wr
    ax := ⟨resetExt s 22 s.ax.r0, resetExt s 24 s.ax.r1⟩
    sr := drawn s 26 s.sr
    cr := drawn s 27 s.cr
    st := ⟨resetStack s 0 s.st.r0, resetStack s 1 s.st.r1, resetStack s 2 s.st.r2, resetStack s 3 s.st.r3⟩
    pc := s.cfg.resetPc
    stepCnt := 0
    wbq := []
    initHint := false
    fWbovf := false
    fWbpending := false
    wBadcmd := false
    precise := s.cfgPrecise
    resetCount := s.resetCount + 1 }

end Sys2Proof.Machine
end

