-- ==== Sys2Proof/Machine/AccProd.lean ====
section
/-! DEFINITION. The accumulator and product accessors (`41_acc_prod.md` rules R74 to R80). -/

namespace Sys2Proof.Machine

/-- `ACCGET` (rule R75). -/
def execAccget (a : Two) (s : State) : Outcome :=
  .next (respond (s.ac.get a).long s)

/-- `ACCSET` (rule R76). -/
def execAccset (a : Two) (v : Long) (s : State) : Outcome :=
  .next (respond 0#40 { s with ac := s.ac.set a (accOfLong v) })

/-- The windows of an accumulator after the conditional sign extension (rule R77). -/
def extendMid (x : Acc) : Acc :=
  { x with h := if x.m.getLsbD 15 then 0xFFFF#16 else 0x0000#16, l := 0x0000#16 }

/-- `CEXT`: acts only on a mid-window index and only while `SR.SXM = 1` (rule R77). -/
def execCext (i : Reg) (s : State) : Outcome :=
  match i with
  | .acm a =>
    .next (respond 0#40 (if srSXM s.sr then { s with ac := s.ac.set a (extendMid (s.ac.get a)) } else s))
  | .ar _ | .ix _ | .wr _ | .st _ | .ach _ | .cr | .sr | .prodl | .prodm | .prodh | .prodm2
  | .axl _ | .axh _ | .acl _ => .next (respond 0#40 s)

/-- `PRODGET` (rule R78). -/
def execProdget (s : State) : Outcome :=
  .next (respond s.prod.long s)

/-- `PRODGETR` (rule R79). -/
def execProdgetr (s : State) : Outcome :=
  .next (respond (roundLong s.prod.long) s)

/-- `PRODSET` (rule R80). -/
def execProdset (v : Long) (s : State) : Outcome :=
  .next (respond 0#40 { s with prod := productOfLong v })

end Sys2Proof.Machine
end

