-- ==== Sys2Proof/Machine/AddressUnit.lean ====
section
/-! DEFINITION. The address-unit commands (`40_address_unit.md` rules R64 to R72). -/

namespace Sys2Proof.Machine

/-- `ARINC` (rule R69). -/
def execArinc (n : Four) (q : Bool) (s : State) : Outcome :=
  .next (finishAddr n q (incAddr (s.ar.get n) (s.wr.get n)) s)

/-- `ARDEC` (rule R70). -/
def execArdec (n : Four) (q : Bool) (s : State) : Outcome :=
  .next (finishAddr n q (decAddr (s.ar.get n) (s.wr.get n)) s)

/-- `ARADDIX` (rule R71). -/
def execAraddix (n : Four) (q : Bool) (s : State) : Outcome :=
  .next (finishAddr n q (addIxAddr (s.ar.get n) (s.wr.get n) (s.ix.get n)) s)

/-- `ARSUBIX` (rule R72). -/
def execArsubix (n : Four) (q : Bool) (s : State) : Outcome :=
  .next (finishAddr n q (subIxAddr (s.ar.get n) (s.wr.get n) (s.ix.get n)) s)

end Sys2Proof.Machine
end

