-- ==== Sys2Proof/Machine/Multiplier.lean ====
section
/-! DEFINITION. The multiplier commands (`42_multiplier.md` rules R82 to R88). -/

namespace Sys2Proof.Machine

/-- `MUL` (rule R85). -/
def execMul (mode : MulMode) (w : Bool) (a b : Word) (s : State) : Outcome :=
  .next (finishMul (wrap40 (mulProd (srSU s.sr) (srAM s.sr) mode a b)) w s)

/-- `MAC` (rule R86). -/
def execMac (mode : MulMode) (w : Bool) (a b : Word) (s : State) : Outcome :=
  .next (finishMul (wrap40 (s.prod.long.toInt + mulProd (srSU s.sr) (srAM s.sr) mode a b)) w s)

/-- `MSUB` (rule R87). -/
def execMsub (mode : MulMode) (w : Bool) (a b : Word) (s : State) : Outcome :=
  .next (finishMul (wrap40 (s.prod.long.toInt - mulProd (srSU s.sr) (srAM s.sr) mode a b)) w s)

/-- `MULX` (rule R88). -/
def execMulx (sa sb : Bool) (w : Bool) (s : State) : Outcome :=
  .next (finishMul
    (wrap40 (mulxProd (srSU s.sr) (srAM s.sr) sa sb ((s.ax.get .i0).half sa) ((s.ax.get .i1).half sb))) w s)

end Sys2Proof.Machine
end

