-- ==== Sys2Proof/Machine/RegAccess.lean ====
section
/-! DEFINITION. Register access by index (`46_regaccess.md` rules R122 to R128). -/

namespace Sys2Proof.Machine

/-- `REGRD`: the 16-bit value zero-extended; a stack index pops (rule R124). -/
def execRegrd (i : Reg) (s : State) : Outcome :=
  .next (respond ((regValue i s).zeroExtend 40) (afterRead i s))

/-- The saturating read of an accumulator's mid window (rule R128). -/
def saturatedMid (sxm : Bool) (x : Acc) : Word :=
  if sxm && !fits32 x.long then (if x.long.toInt < 0 then 0x8000#16 else 0x7FFF#16) else x.m

/-- `REGRDS` (rule R128). -/
def execRegrds (a : Two) (s : State) : Outcome :=
  .next (respond ((saturatedMid (srSXM s.sr) (s.ac.get a)).zeroExtend 40) s)

/-- `REGWR` (rule R127). -/
def execRegwr (i : Reg) (v : Word) (s : State) : Outcome :=
  .next (respond 0#40 (regWrite i v s))

end Sys2Proof.Machine
end

