-- ==== Sys2Proof/Machine/Sequencer.lean ====
section
/-! DEFINITION. The step, control-flow and host commands (`45_sequencer.md` rules R108 to R121). -/

namespace Sys2Proof.Machine

/-- `NOP` (rule R111). -/
def execNop (s : State) : Outcome :=
  .next (respond 0#40 s)

/-- `STEP`: faults on a non-empty queue, else counts the step and advances `PC` (rule R112). -/
def execStep (len : Word) (s : State) : Outcome :=
  if 0 < s.wbq.length then .next (raiseFault .wbpending s)
  else .next (respond 0#40 { s with stepCnt := s.stepCnt + 1, pc := s.pc + len })

/-- The guard of `LOOPEND`: a loop is active and its last instruction was just executed (rule R118). -/
def loopActive (s : State) : Bool :=
  (s.st.get .i2).top != 0#16 && (s.st.get .i3).top != 0#16 && s.pc - 1#16 == (s.st.get .i2).top

/-- The loop counter, the top of stack 3, decremented in place (rules R117 and R118). -/
def countLoop (s : State) : State :=
  { s with st := s.st.set .i3 { s.st.get .i3 with top := (s.st.get .i3).top - 1#16 } }

/-- `LOOPEND` (rule R118). -/
def execLoopend (s : State) : Outcome :=
  if loopActive s then
    let t := countLoop s
    if (t.st.get .i3).top ≠ 0#16 then .next (respond 0#40 { t with pc := (t.st.get .i0).top })
    else .next (respond 0#40 (pop .i3 (pop .i2 (pop .i0 t))))
  else .next (respond 0#40 s)

/-- `PCRD` (rule R113). -/
def execPcrd (s : State) : Outcome :=
  .next (respond (s.pc.zeroExtend 40) s)

/-- `PCWR` (rule R114). -/
def execPcwr (t : Word) (s : State) : Outcome :=
  .next (respond 0#40 { s with pc := t })

/-- `CRRD`: the status bit is stored as well as answered (rule R120). -/
def execCrrd (s : State) : Outcome :=
  let cr := putBit s.cr s.cfg.crPctopStatusBit (s.pc.getLsbD 15)
  .next (respond (cr.zeroExtend 40) { s with cr := cr })

/-- `CRWR`: reset first and store second, or the init hint, or a plain store (rule R121). -/
def execCrwr (v : Word) (s : State) : Outcome :=
  if v.getLsbD 0 then .next (respond 0#40 { performReset s with cr := v &&& ~~~0x0001#16 })
  else if v = s.cfg.crInitValue then
    .next (respond 0#40 { s with initHint := true, cr := v ||| (1#16 <<< s.cfg.crInitStatusBit) })
  else .next (respond 0#40 { s with cr := v })

end Sys2Proof.Machine
end

