-- ==== Sys2Proof/Machine/StatusCond.lean ====
section
/-! DEFINITION. The flag updates and the condition evaluation (`43_status_cond.md` rules R91 to R97). -/

namespace Sys2Proof.Machine

/-- `SR16` (rule R92). -/
def execSr16 (x : Word) (c o f : Bool) (s : State) : Outcome :=
  .next (respond 0#40 { s with sr := sr16Flags s.sr x c o f })

/-- `SR64` (rule R93). -/
def execSr64 (x : Long) (c o : Bool) (s : State) : Outcome :=
  .next (respond 0#40 { s with sr := sr64Flags s.sr x c o })

/-- `SRLZ` (rule R94). -/
def execSrlz (b : Bool) (s : State) : Outcome :=
  .next (respond 0#40 { s with sr := srlzFlags s.sr b })

/-- `COND`: the one command that answers on `rsp_cond` (rule R97). -/
def execCond (cc : Cond) (s : State) : Outcome :=
  .next { s with rspData := 0#40, rspCond := condTrue cc s.sr }

end Sys2Proof.Machine
end

