-- ==== Sys2Proof/Machine/Writeback.lean ====
section
/-! DEFINITION. The write-back queue commands (`44_writeback.md` rules R99 to R106). -/

namespace Sys2Proof.Machine

/-- `WBAPPEND` (rule R101). -/
def execWbappend (i : Reg) (v : Word) (s : State) : Outcome :=
  .next (queueWrite i v 0#40 s)

/-- `WBFLUSH` (rule R102). -/
def execWbflush (s : State) : Outcome :=
  .next (respond 0#40 { flushEntries s.wbq s with wbq := [] })

/-- `WBZERO`: the queue keeps its entries (rule R104). -/
def execWbzero (s : State) : Outcome :=
  .next (respond 0#40 (zeroEntries s.wbq s))

/-- `WBZEROP`: the queue keeps its entries (rule R105). -/
def execWbzerop (a : Two) (s : State) : Outcome :=
  .next (respond 0#40 (zeroEntriesBut a s.wbq s))

end Sys2Proof.Machine
end

