-- ==== Sys2Proof/Machine/Dispatch.lean ====
section
/-! DEFINITION. The dispatch: one arm per command, each one direct call of the command's meaning (rule R58). -/

namespace Sys2Proof.Machine

def exec (i : Instr) (s : State) : Host.Outcome State Fault Refusal :=
  match i with
  | .nop => Sys2Proof.Machine.execNop s
  | .arinc n q => Sys2Proof.Machine.execArinc n q s
  | .ardec n q => Sys2Proof.Machine.execArdec n q s
  | .araddix n q => Sys2Proof.Machine.execAraddix n q s
  | .arsubix n q => Sys2Proof.Machine.execArsubix n q s
  | .accget a => Sys2Proof.Machine.execAccget a s
  | .accset a v => Sys2Proof.Machine.execAccset a v s
  | .cext r => Sys2Proof.Machine.execCext r s
  | .prodget => Sys2Proof.Machine.execProdget s
  | .prodgetr => Sys2Proof.Machine.execProdgetr s
  | .prodset v => Sys2Proof.Machine.execProdset v s
  | .mul mode w a b => Sys2Proof.Machine.execMul mode w a b s
  | .mac mode w a b => Sys2Proof.Machine.execMac mode w a b s
  | .msub mode w a b => Sys2Proof.Machine.execMsub mode w a b s
  | .mulx sa sb w => Sys2Proof.Machine.execMulx sa sb w s
  | .sr16 x c o f => Sys2Proof.Machine.execSr16 x c o f s
  | .sr64 x c o => Sys2Proof.Machine.execSr64 x c o s
  | .srlz b => Sys2Proof.Machine.execSrlz b s
  | .cond cc => Sys2Proof.Machine.execCond cc s
  | .regrd r => Sys2Proof.Machine.execRegrd r s
  | .regrds a => Sys2Proof.Machine.execRegrds a s
  | .regwr r v => Sys2Proof.Machine.execRegwr r v s
  | .wbappend r v => Sys2Proof.Machine.execWbappend r v s
  | .wbflush => Sys2Proof.Machine.execWbflush s
  | .wbzero => Sys2Proof.Machine.execWbzero s
  | .wbzerop a => Sys2Proof.Machine.execWbzerop a s
  | .step len => Sys2Proof.Machine.execStep len s
  | .loopend => Sys2Proof.Machine.execLoopend s
  | .pcrd => Sys2Proof.Machine.execPcrd s
  | .pcwr t => Sys2Proof.Machine.execPcwr t s
  | .crrd => Sys2Proof.Machine.execCrrd s
  | .crwr v => Sys2Proof.Machine.execCrwr v s

end Sys2Proof.Machine
end

