-- ==== Sys2Proof/Machine/Port.lean ====
section
/-! DEFINITION. The command port: the order of checks on a presented word (`60_exceptions.md` rule R138), and one
clock of the block (`00_scope.md` rule R8, `70_reset_and_hazards.md` rules R146 and R156). -/

namespace Sys2Proof.Machine

/-- The word is a `CRWR` whose `d[0]` is 1: the one command a faulted block accepts (rule R134). -/
def resettingWord (w : BitVec 64) : Bool :=
  match decode w with
  | .ok (.crwr v) => v.getLsbD 0
  | _ => false

/-- A presented word: ignored while a fault bit is set unless it resets, a reserved word warned of, and otherwise
the command's own rule, in this order (rule R138). -/
def runWord (w : BitVec 64) (s : State) : Outcome :=
  if faulted s && !resettingWord w then .next (ignoreCommand s)
  else
    match decode w with
    | .error _ => .next (badCommand s)
    | .ok i => exec i s

/-- The state in which an input clock is seen: the clock taken off the list, the level of `cfg_precise` as it is. -/
def seeClock (c : InputClock) (rest : List InputClock) (s : State) : State :=
  { s with inputs := rest, cfgPrecise := c.cfgPrecise }

/-- One clock of the block: `rst` resets and wins over a command of the same clock (log entry 6), else a presented
word is run; with neither, or past the end of the inputs, nothing changes (rules R8, R108, R146, R156). -/
def clock (s : State) : Outcome :=
  if s.cfg.valid then
    match s.inputs with
    | [] => .next s
    | c :: rest =>
      let t := seeClock c rest s
      if c.rst then .next (performReset t)
      else if c.cmdValid then runWord c.cmd t
      else .next t
  else .fault .invalidConfig

end Sys2Proof.Machine
end

