-- ==== Sys2Proof/Machine/Step.lean ====
section
/-! DEFINITION. The step of the machine, one clock (`70_reset_and_hazards.md` rule R156), and the placing of a word
where the next step reads it. -/

namespace Sys2Proof.Machine

/-- One step: one clock of the block. -/
def step : State → Host.Outcome State Fault Refusal := clock

/-- The state with a command of `nbits` bits presented in the very next clock, ahead of the inputs already listed:
`rst = 0`, `cmd_valid = 1`, `cfg_precise` at its present level (log entry 3). -/
def State.withFetchWord (s : State) (nbits w : Nat) : State :=
  { s with inputs := ⟨false, s.cfgPrecise, true, BitVec.ofNat 64 (w % 2 ^ nbits)⟩ :: s.inputs }

end Sys2Proof.Machine
end

