-- ==== Sys2Proof/Safety.lean ====
section
/-! DEFINITION. What the claims about the block are stated in: the invariant of the state, what a reset of the block
is, and the spec's exact values written over the integers, apart from the model's own bit-vector definitions. -/

namespace Sys2Proof.Safety

open Sys2Proof.Machine

/-! ### The invariant -/

/-- A stack has its backing store of `STACK_DEPTH` entries and its pointer inside it (rule R27). -/
abbrev StackOk (depth : Nat) (k : Stack) : Prop := k.mem.length = depth ∧ k.ptr < depth

/-- All four stacks are so (rule R27). -/
abbrev StacksOk (s : State) : Prop := ∀ k, StackOk s.cfg.stackDepth (s.st.get k)

/-- A high window is the sign extension of its low 8 bits (rule R12). -/
abbrev HighOk (h : Word) : Prop := ∀ j, 8 ≤ j → j < 16 → h.getLsbD j = h.getLsbD 7

/-- What every state of a run satisfies. -/
structure Inv (s : State) : Prop where
  /-- The open parameters meet U6, and no step changes them. -/
  config : s.cfg.valid = true
  /-- Rule R12, for both accumulators. -/
  highs : ∀ a, HighOk (s.ac.get a).h
  /-- Rule R27, for all four stacks. -/
  stackShape : StacksOk s
  /-- Rule R30: the queue holds at most `WB_CAPACITY` entries. -/
  queueBound : s.wbq.length ≤ s.cfg.wbCapacity
  /-- Rule R135: an overflow leaves the queue full. -/
  overflowFull : s.fWbovf = true → s.wbq.length = s.cfg.wbCapacity
  /-- Rule R136: the queue keeps its entries until reset. -/
  pendingKept : s.fWbpending = true → s.wbq ≠ []
  /-- Rule R143: a second faulting command cannot execute. -/
  oneFault : ¬(s.fWbovf = true ∧ s.fWbpending = true)

/-! ### Resets, reserved words, runs of commands -/

/-- The command is a `CRWR` that resets (rule R121). -/
def resets (i : Instr) : Bool :=
  match i with
  | .crwr v => v.getLsbD 0
  | _ => false

/-- The next clock of `s` resets the block: `rst`, or a resetting `CRWR` (rule R146). -/
def ResetClock (s : State) : Prop :=
  ∃ c rest, s.inputs = c :: rest ∧
    (c.rst = true ∨ c.cmdValid = true ∧ ∃ v, decode c.cmd = .ok (.crwr v) ∧ v.getLsbD 0 = true)

/-- The commands that touch only the flags of `SR`, and `COND` (rule R98 (e)). -/
def flagCommand (i : Instr) : Bool :=
  match i with
  | .sr16 _ _ _ _ | .sr64 _ _ _ | .srlz _ | .cond _ => true
  | _ => false

/-- The commands that write the targets of queued entries (rules R102, R104, R105). -/
def writesTargets (i : Instr) : Bool :=
  match i with
  | .wbflush | .wbzero | .wbzerop _ => true
  | _ => false

/-- The word matches no row of the opcode table: its `op` is unassigned, or a bit that its format fixes to 0 is set,
or it is a multiplier word of mode 3 (rule R59). -/
def ReservedWord (w : BitVec 64) : Prop :=
  ∀ o, w &&& (tableRow o).2 = (tableRow o).1 → rowConstraint o w = false

/-- Commands executed one after the other, in issue order (rule R45). -/
def runCommands : List Instr → State → Outcome
  | [], s => .next s
  | i :: is, s =>
    match exec i s with
    | .next t => runCommands is t
    | .fault r => .fault r
    | .refused r => .refused r

/-- The values rule R147 states for a reset, and the shape it keeps; the registers it leaves unspecified are not
mentioned, but for the sign extension of the high windows. -/
structure ResetValues (s t : State) : Prop where
  pc : t.pc = s.cfg.resetPc
  stepCnt : t.stepCnt = 0
  wbq : t.wbq = []
  pointers : ∀ k, (t.st.get k).ptr = 0
  stores : ∀ k, (t.st.get k).mem.length = s.cfg.stackDepth
  initHint : t.initHint = false
  fWbovf : t.fWbovf = false
  fWbpending : t.fWbpending = false
  wBadcmd : t.wBadcmd = false
  highs : ∀ a, HighOk (t.ac.get a).h
  precise : t.precise = s.cfgPrecise
  cfg : t.cfg = s.cfg

/-! ### The spec's values over the integers -/

/-- `s8(v)` (rule R157). -/
def s8 (v : Word) : Int := (v.toNat : Int).bmod 256

/-- `Acc(a)` (rule R11) as the unsigned number of its 40 bits. -/
def accNat (x : Acc) : Nat := x.h.toNat % 2 ^ 8 * 2 ^ 32 + x.m.toNat * 2 ^ 16 + x.l.toNat

/-- The sum of rule R15 before its reduction modulo 2^40. -/
def prodSum (p : Product) : Int :=
  s8 p.h * 2 ^ 32 + ((p.m.toNat : Int) + p.m2.toNat) * 2 ^ 16 + p.l.toNat

/-- `Prod()` (rule R15): the long value congruent to the sum. -/
def prodInt (p : Product) : Int := (prodSum p).bmod (2 ^ 40)

/-- The fields rules R80 and R84 write for a long value: a zero-extended high byte, the whole middle in `m`. -/
def fieldsOfLong (v : Long) : Product where
  h := BitVec.ofNat 16 (v.toNat / 2 ^ 32)
  m := BitVec.ofNat 16 (v.toNat / 2 ^ 16)
  m2 := 0#16
  l := BitVec.ofNat 16 v.toNat

/-- `MulProd(a, b, mode)` (rule R83): bit 15 of `SR` is `SU`, bit 13 is `AM`. -/
def mulInt (sr : Word) (mode : MulMode) (a b : Word) : Int :=
  (if sr.getLsbD 13 then 1 else 2) *
    (if sr.getLsbD 15 then
      match mode with
      | .ss => a.toInt * b.toInt
      | .uu => (a.toNat : Int) * b.toNat
      | .us => (a.toNat : Int) * b.toInt
     else a.toInt * b.toInt)

/-- The candidate of rule R65 corrected or not, over the integers. -/
def incInt (ar wr : Nat) : Int :=
  let nar := ar + 1
  if (nar ^^^ ar) > (wr ||| 1) * 2 then (nar : Int) - (wr + 1) else nar

/-- The candidate of rule R66 corrected or not, over the integers. -/
def decInt (ar wr : Nat) : Int :=
  let nar := ar + wr
  if ((nar ^^^ ar) &&& ((wr ||| 1) * 2)) > wr then (nar : Int) - (wr + 1) else nar

/-- `u32(n)` (rule R157). -/
def u32 (n : Int) : Nat := (n % 2 ^ 32).toNat

/-- The candidate of rule R67 corrected or not, over the integers. -/
def addIxInt (ar wr : Nat) (ix : Int) : Int :=
  let mx := (wr ||| 1) * 2
  let nar := u32 (ar + ix)
  let dar := (nar ^^^ ar ^^^ u32 ix) &&& mx
  if 0 ≤ ix then
    if dar > wr then (nar : Int) - (wr + 1) else nar
  else
    if ((u32 (nar + wr + 1) ^^^ nar) &&& dar) ≤ wr then (nar : Int) + wr + 1 else nar

/-- The candidate of rule R68 corrected or not, over the integers: `~ixu` is `u32(-ix - 1)`. -/
def subIxInt (ar wr : Nat) (ix : Int) : Int :=
  let mx := (wr ||| 1) * 2
  let nar := u32 (ar - ix)
  let dar := (nar ^^^ ar ^^^ u32 (-ix - 1)) &&& mx
  if -32767 ≤ ix ∧ ix ≤ -1 then
    if dar > wr then (nar : Int) - (wr + 1) else nar
  else
    if ((u32 (nar + wr + 1) ^^^ nar) &&& dar) ≤ wr then (nar : Int) + wr + 1 else nar

/-- A wrap mask of the form `2^k - 1` (rule R73). -/
def ringMask (k : Nat) : Word := BitVec.ofNat 16 (2 ^ k - 1)

/-- The stack after a pop (rule R28), its pointer one lower modulo the depth. -/
def popped (depth : Nat) (k : Stack) : Stack :=
  ⟨k.mem.getD k.ptr 0#16, k.mem, if k.ptr = 0 then depth - 1 else k.ptr - 1⟩

/-- The stack after a push (rule R27), its pointer one higher modulo the depth, the old top stored there. -/
def pushed (depth : Nat) (v : Word) (k : Stack) : Stack :=
  let p := if k.ptr + 1 = depth then 0 else k.ptr + 1
  ⟨v, k.mem.set p k.top, p⟩

end Sys2Proof.Safety
end

