-- ==== Sys2Proof/Certificates/Slice0/Obligations.lean ====
section
/-! DEFINITION. The statements about the block. A next state is written as the old state with the fields the command
changes, so each such equation is also the command's frame: every register, flag, queue entry and bit that it does not
name is unchanged. The block has no memory (`20_memory.md` rule R39). Where a rule gives a command's encoding, the
statement says it beside the effect, field by field as rule R51 lists them (op, q, r, f, z, d). -/

open Sys2Proof Sys2Proof.Machine Sys2Proof.Safety

/-! ### Encoding -/

/-- Decoding an encoded command gives it back, every operand at every value (rules R50 to R58). -/
def Obligations.DecodeOfEncodeIsTheCommand : Prop :=
  ∀ i, decode (encode i) = .ok i

/-- A word that decodes is the one word of its command: no bit of it is dropped (rules R50 to R59). -/
def Obligations.EncodeOfDecodeIsTheWord : Prop :=
  ∀ w i, decode w = .ok i → encode i = w

/-- The decoder refuses exactly the words that match no row of the opcode table (rules R58 and R59). -/
def Obligations.DecoderRefusesExactlyReservedWords : Prop :=
  ∀ w, (∃ e, decode w = .error e) ↔ ReservedWord w

/-- Words the rules print as examples decode to the commands they stand for. -/
def Obligations.ExampleWordsDecode : Prop :=
  decode 0x0000000000000000#64 = .ok .nop
  ∧ decode 0x1000000000000000#64 = .ok (.arinc .i0 false)
  ∧ decode 0x2010000000000000#64 = .ok (.accget .i1)
  ∧ decode 0x240000123456789A#64 = .ok (.accset .i0 0x123456789A#40)
  ∧ decode 0x29E0000000000000#64 = .ok (.cext (.acm .i0))
  ∧ decode 0x42000000FFFF0001#64 = .ok (.mul .ss true 0x0001#16 0xFFFF#16)
  ∧ decode 0x4C10000000000000#64 = .ok (.mulx false true false)
  ∧ decode 0x6007000000003FFF#64 = .ok (.sr16 0x3FFF#16 true true true)
  ∧ decode 0x6C01000000000000#64 = .ok (.cond .l)
  ∧ decode 0x8930000000000000#64 = .ok (.regwr .sr 0x0000#16)
  ∧ decode 0xA180000000001111#64 = .ok (.wbappend (.axl .i0) 0x1111#16)
  ∧ decode 0xC000000000000001#64 = .ok (.step 0x0001#16)
  ∧ decode 0xD400000000000004#64 = .ok (.crwr 0x0004#16)

/-! ### The command port -/

/-- A presented word that decodes is executed, unless a fault bit is set and it does not reset (rules R134, R138).
Around the command's own rule the step takes the clock off the input list and sees its level of `cfg_precise`; that
input list is the model's (log entry 3). -/
def Obligations.StepRunsThePresentedCommand : Prop :=
  ∀ s c rest i, s.cfg.valid = true → s.inputs = c :: rest → c.rst = false → c.cmdValid = true →
    decode c.cmd = .ok i → (faulted s = false ∨ resets i = true) →
    step s = exec i { s with inputs := rest, cfgPrecise := c.cfgPrecise }

/-- A reserved word changes nothing but the warning bit, and answers zeros (rules R59 and R90); it is seen as one of
the model's input clocks (log entry 3). That the model runs the word as the block does, and does not refuse it, is the
model's choice (log entry 8). -/
def Obligations.ReservedWordOnlySetsTheWarning : Prop :=
  ∀ s c rest, s.cfg.valid = true → s.inputs = c :: rest → c.rst = false → c.cmdValid = true →
    faulted s = false → ReservedWord c.cmd →
    step s = .next { s with
      inputs := rest, cfgPrecise := c.cfgPrecise, wBadcmd := true, rspData := 0#40, rspCond := false }

/-- While a fault bit is set every word but a resetting `CRWR`, reserved or not, is ignored and answered with zeros
(rule R134). -/
def Obligations.FaultedBlockIgnoresCommands : Prop :=
  ∀ s c rest, s.cfg.valid = true → s.inputs = c :: rest → c.rst = false → c.cmdValid = true →
    (s.fWbovf = true ∨ s.fWbpending = true) → (∀ v, decode c.cmd = .ok (.crwr v) → v.getLsbD 0 = false) →
    step s = .next { s with inputs := rest, cfgPrecise := c.cfgPrecise, rspData := 0#40, rspCond := false }

/-- A clock without a command changes no state of the block (rule R108). What such a clock leaves in the response
record, and that past the end of the input list nothing is presented, are the model's choices (log entries 3, 7). -/
def Obligations.ClockWithoutCommandChangesNothing : Prop :=
  ∀ s, s.cfg.valid = true →
    (s.inputs = [] → step s = .next s) ∧
    ∀ c rest, s.inputs = c :: rest → c.rst = false → c.cmdValid = false →
      step s = .next { s with inputs := rest, cfgPrecise := c.cfgPrecise }

/-- The reset input puts the block at the stated reset values, with or without a command in the same clock, and
`PRECISE` is sampled from that clock (rules R36, R146, R147, R148). That `rst` wins over the command is the model's
choice (log entry 6). -/
def Obligations.ResetInputGivesTheResetValues : Prop :=
  ∀ s c rest, s.cfg.valid = true → s.inputs = c :: rest → c.rst = true →
    ∃ t, step s = .next t ∧ ResetValues { s with cfgPrecise := c.cfgPrecise } t ∧ t.inputs = rest

/-! ### Reset state and invariant -/

/-- `State.reset` holds every value the reset table states (rule R36); the values it does not state are the model's
(log entries 1, 2, 5) and are not mentioned. -/
def Obligations.ResetStateHasTheStatedValues : Prop :=
  State.reset.pc = State.reset.cfg.resetPc ∧ State.reset.stepCnt = 0 ∧ State.reset.wbq = []
  ∧ (∀ k, (State.reset.st.get k).ptr = 0 ∧ (State.reset.st.get k).mem.length = State.reset.cfg.stackDepth)
  ∧ State.reset.initHint = false ∧ State.reset.fWbovf = false ∧ State.reset.fWbpending = false
  ∧ State.reset.wBadcmd = false ∧ ∀ a, HighOk (State.reset.ac.get a).h

/-- The invariant holds right after reset; the open parameters it finds valid are the model's (log entry 2). -/
def Obligations.ResetStateMeetsTheInvariant : Prop :=
  Safety.Inv State.reset

/-- Every step of the machine, from every state that meets the invariant, leads to one that meets it: high windows
sign-extended (R12), stacks in shape (R27), the queue bounded (R30), at most one fault and what it records (R135,
R136, R143). -/
def Obligations.EveryStepKeepsTheInvariant : Prop :=
  ∀ s t, Safety.Inv s → step s = .next t → Safety.Inv t

/-! ### Rules about every command -/

/-- The sticky bits, the init hint and `PRECISE` change back only by a reset (rules R31, R32, R137, R147), and no
step changes the open parameters. -/
def Obligations.StickyBitsClearOnlyByReset : Prop :=
  ∀ s t, step s = .next t →
    t.cfg = s.cfg ∧
    (¬ ResetClock s →
      (s.fWbovf = true → t.fWbovf = true) ∧ (s.fWbpending = true → t.fWbpending = true)
      ∧ (s.wBadcmd = true → t.wBadcmd = true) ∧ (s.initHint = true → t.initHint = true)
      ∧ t.precise = s.precise)

/-- The step counter is written by `STEP` and reset and by nothing else (rules R19 and R108). -/
def Obligations.OnlyStepAndResetWriteTheStepCounter : Prop :=
  ∀ i s t, exec i s = .next t → (∀ len, i ≠ .step len) → resets i = false → t.stepCnt = s.stepCnt

/-- The program counter is written by `STEP`, `PCWR`, `LOOPEND` and reset and by nothing else (rules R18, R108). -/
def Obligations.OnlyFourCommandsWriteThePc : Prop :=
  ∀ i s t, exec i s = .next t → (∀ len, i ≠ .step len) → (∀ a, i ≠ .pcwr a) → i ≠ .loopend →
    resets i = false → t.pc = s.pc

/-- `SR` changes only by the three flag commands, by a register write to its index, direct or queued, and by reset
(rules R23 and R91). -/
def Obligations.OnlyFlagCommandsAndIndexedWritesChangeSr : Prop :=
  ∀ i s t, exec i s = .next t → flagCommand i = false → (∀ v, i ≠ .regwr .sr v) → resets i = false →
    (writesTargets i = true → ∀ e ∈ s.wbq, e.1 ≠ .sr) → t.sr = s.sr

/-- No command but `WBFLUSH` and a reset takes an entry off the queue, and none but these changes an entry; a command
appends at most one (rules R30, R100, R148). -/
def Obligations.EntriesLeaveOnlyByFlushOrReset : Prop :=
  ∀ i s t, exec i s = .next t → i ≠ .wbflush → resets i = false →
    ∃ q, t.wbq = s.wbq ++ q ∧ q.length ≤ 1

/-! ### Address unit -/

/-- `ARINC`: the address of rule R65 written, or queued, or the overflow fault (rule R69). -/
def Obligations.ArincWritesOrQueuesTheIncrement : Prop :=
  ∀ n s, (∀ q, encode (.arinc n q) = wordOf ⟨0x04#6, q, 0#3 ++ bitsOfFour n, 0#4, 0#8, 0#40⟩) ∧
    ∃ v : Word, v = BitVec.ofInt 16 (incInt (s.ar.get n).toNat (s.wr.get n).toNat)
      ∧ exec (.arinc n false) s = .next { s with
          ar := s.ar.set n v, rspData := BitVec.ofNat 40 v.toNat, rspCond := false }
      ∧ (s.wbq.length ≠ s.cfg.wbCapacity → exec (.arinc n true) s = .next { s with
          wbq := s.wbq ++ [(.ar n, v)], rspData := BitVec.ofNat 40 v.toNat, rspCond := false })
      ∧ (s.wbq.length = s.cfg.wbCapacity → exec (.arinc n true) s = .next { s with
          fWbovf := true, rspData := 0#40, rspCond := false })

/-- `ARDEC`: the address of rule R66 written, or queued, or the overflow fault (rule R70). -/
def Obligations.ArdecWritesOrQueuesTheDecrement : Prop :=
  ∀ n s, (∀ q, encode (.ardec n q) = wordOf ⟨0x05#6, q, 0#3 ++ bitsOfFour n, 0#4, 0#8, 0#40⟩) ∧
    ∃ v : Word, v = BitVec.ofInt 16 (decInt (s.ar.get n).toNat (s.wr.get n).toNat)
      ∧ exec (.ardec n false) s = .next { s with
          ar := s.ar.set n v, rspData := BitVec.ofNat 40 v.toNat, rspCond := false }
      ∧ (s.wbq.length ≠ s.cfg.wbCapacity → exec (.ardec n true) s = .next { s with
          wbq := s.wbq ++ [(.ar n, v)], rspData := BitVec.ofNat 40 v.toNat, rspCond := false })
      ∧ (s.wbq.length = s.cfg.wbCapacity → exec (.ardec n true) s = .next { s with
          fWbovf := true, rspData := 0#40, rspCond := false })

/-- `ARADDIX`: the address of rule R67 written, or queued, or the overflow fault (rule R71). -/
def Obligations.AraddixWritesOrQueuesTheSum : Prop :=
  ∀ n s, (∀ q, encode (.araddix n q) = wordOf ⟨0x06#6, q, 0#3 ++ bitsOfFour n, 0#4, 0#8, 0#40⟩) ∧
    ∃ v : Word, v = BitVec.ofInt 16 (addIxInt (s.ar.get n).toNat (s.wr.get n).toNat (s.ix.get n).toInt)
      ∧ exec (.araddix n false) s = .next { s with
          ar := s.ar.set n v, rspData := BitVec.ofNat 40 v.toNat, rspCond := false }
      ∧ (s.wbq.length ≠ s.cfg.wbCapacity → exec (.araddix n true) s = .next { s with
          wbq := s.wbq ++ [(.ar n, v)], rspData := BitVec.ofNat 40 v.toNat, rspCond := false })
      ∧ (s.wbq.length = s.cfg.wbCapacity → exec (.araddix n true) s = .next { s with
          fWbovf := true, rspData := 0#40, rspCond := false })

/-- `ARSUBIX`: the address of rule R68 written, or queued, or the overflow fault (rule R72). -/
def Obligations.ArsubixWritesOrQueuesTheDifference : Prop :=
  ∀ n s, (∀ q, encode (.arsubix n q) = wordOf ⟨0x07#6, q, 0#3 ++ bitsOfFour n, 0#4, 0#8, 0#40⟩) ∧
    ∃ v : Word, v = BitVec.ofInt 16 (subIxInt (s.ar.get n).toNat (s.wr.get n).toNat (s.ix.get n).toInt)
      ∧ exec (.arsubix n false) s = .next { s with
          ar := s.ar.set n v, rspData := BitVec.ofNat 40 v.toNat, rspCond := false }
      ∧ (s.wbq.length ≠ s.cfg.wbCapacity → exec (.arsubix n true) s = .next { s with
          wbq := s.wbq ++ [(.ar n, v)], rspData := BitVec.ofNat 40 v.toNat, rspCond := false })
      ∧ (s.wbq.length = s.cfg.wbCapacity → exec (.arsubix n true) s = .next { s with
          fWbovf := true, rspData := 0#40, rspCond := false })

/-- With a mask `2^k - 1`, `k` from 1 to 16, increment and decrement stay in the aligned block of `2^k` words that
holds the address and move by one inside it (rule R73 (b)). -/
def Obligations.IncrementAndDecrementStayInTheRing : Prop :=
  ∀ n s k, 1 ≤ k → k ≤ 16 → s.wr.get n = ringMask k →
    ∃ t u, exec (.arinc n false) s = .next t ∧ exec (.ardec n false) s = .next u
      ∧ t.ar.get n = (s.ar.get n &&& ~~~ringMask k) ||| ((s.ar.get n + 1#16) &&& ringMask k)
      ∧ u.ar.get n = (s.ar.get n &&& ~~~ringMask k) ||| ((s.ar.get n - 1#16) &&& ringMask k)

/-- With such a mask increment and decrement undo each other (rule R73 (a)). -/
def Obligations.IncrementAndDecrementAreInverse : Prop :=
  ∀ n s k, 1 ≤ k → k ≤ 16 → s.wr.get n = ringMask k →
    (∃ t u, exec (.arinc n false) s = .next t ∧ exec (.ardec n false) t = .next u ∧ u.ar = s.ar) ∧
    (∃ t u, exec (.ardec n false) s = .next t ∧ exec (.arinc n false) t = .next u ∧ u.ar = s.ar)

/-- With such a mask and a delta from `-(wr + 1)` to `wr`, both indexed updates are circular, but for `ARSUBIX` with
delta -32768 under the mask 0x7FFF (rule R73 (c)). -/
def Obligations.IndexedUpdatesAreCircular : Prop :=
  ∀ n s k, 1 ≤ k → k ≤ 16 → s.wr.get n = ringMask k →
    -2 ^ k ≤ (s.ix.get n).toInt → (s.ix.get n).toInt ≤ 2 ^ k - 1 →
    ∃ t u, exec (.araddix n false) s = .next t ∧ exec (.arsubix n false) s = .next u
      ∧ t.ar.get n = (s.ar.get n &&& ~~~ringMask k) ||| ((s.ar.get n + s.ix.get n) &&& ringMask k)
      ∧ (¬(k = 15 ∧ (s.ix.get n).toInt = -32768) →
          u.ar.get n = (s.ar.get n &&& ~~~ringMask k) ||| ((s.ar.get n - s.ix.get n) &&& ringMask k))

/-! ### Accumulators and product register -/

/-- `ACCGET` answers the 40 bits of the three windows and changes nothing (rule R75). -/
def Obligations.AccgetAnswersTheLongValue : Prop :=
  ∀ a s, encode (.accget a) = wordOf ⟨0x08#6, false, 0#4 ++ BitVec.ofBool (bitOfTwo a), 0#4, 0#8, 0#40⟩
    ∧ exec (.accget a) s = .next { s with rspData := BitVec.ofNat 40 (accNat (s.ac.get a)), rspCond := false }

/-- `ACCSET` writes the three windows, the high one sign-extended, and `ACCGET` then answers the value (rule R76). -/
def Obligations.AccsetWritesTheThreeWindows : Prop :=
  ∀ a v s, encode (.accset a v) = wordOf ⟨0x09#6, false, 0#4 ++ BitVec.ofBool (bitOfTwo a), 0#4, 0#8, v⟩ ∧
    ∃ t, exec (.accset a v) s = .next t
      ∧ t = { s with
          ac := s.ac.set a
            ⟨BitVec.ofInt 16 (v.toInt / 2 ^ 32), BitVec.ofNat 16 (v.toNat / 2 ^ 16), BitVec.ofNat 16 v.toNat⟩
          rspData := 0#40, rspCond := false }
      ∧ exec (.accget a) t = .next { t with rspData := v, rspCond := false }

/-- `CEXT` on a mid-window index with `SR.SXM = 1` leaves the value of the mid window times 2^16; otherwise it changes
nothing (rule R77). -/
def Obligations.CextExtendsTheMidWindow : Prop :=
  ∀ s, (∀ i, encode (.cext i) = wordOf ⟨0x0A#6, false, indexOfReg i, 0#4, 0#8, 0#40⟩) ∧
    (∀ a, s.sr.getLsbD 14 = true → ∃ x : Acc,
      x = ⟨if (s.ac.get a).m.toInt < 0 then 0xFFFF#16 else 0x0000#16, (s.ac.get a).m, 0x0000#16⟩
      ∧ exec (.cext (.acm a)) s = .next { s with ac := s.ac.set a x, rspData := 0#40, rspCond := false }
      ∧ (accNat x : Int).bmod (2 ^ 40) = (s.ac.get a).m.toInt * 2 ^ 16)
    ∧ (∀ i, (s.sr.getLsbD 14 = false ∨ ∀ a, i ≠ .acm a) →
      exec (.cext i) s = .next { s with rspData := 0#40, rspCond := false })

/-- `PRODGET` answers the sum of the fields reduced to 40 bits and changes nothing (rules R15 and R78). -/
def Obligations.ProdgetAnswersTheSumOfTheFields : Prop :=
  ∀ s, encode .prodget = wordOf ⟨0x0B#6, false, 0#5, 0#4, 0#8, 0#40⟩ ∧
    ∃ r : Long, r.toInt = prodInt s.prod ∧ exec .prodget s = .next { s with rspData := r, rspCond := false }

/-- `PRODGETR` answers the multiple of 0x10000 nearest the product value, a tie going to the multiple whose bit 16 is
0, reduced to 40 bits, and changes nothing (rules R79 and R81 (e)). -/
def Obligations.ProdgetrRoundsToTheNearestMultiple : Prop :=
  ∀ s, encode .prodgetr = wordOf ⟨0x0C#6, false, 0#5, 0#4, 0#8, 0#40⟩ ∧
    ∃ m : Int, (2 ^ 16 * m - prodInt s.prod).natAbs ≤ 0x8000
      ∧ ((2 ^ 16 * m - prodInt s.prod).natAbs = 0x8000 → m % 2 = 0)
      ∧ exec .prodgetr s = .next { s with rspData := BitVec.ofInt 40 (2 ^ 16 * m), rspCond := false }

/-- `PRODSET` splits the value over the fields, clearing `m2`, and `PRODGET` then answers it (rule R80). -/
def Obligations.ProdsetSplitsTheLongValue : Prop :=
  ∀ v s, encode (.prodset v) = wordOf ⟨0x0D#6, false, 0#5, 0#4, 0#8, v⟩ ∧
    ∃ t, exec (.prodset v) s = .next t
      ∧ t = { s with prod := fieldsOfLong v, rspData := 0#40, rspCond := false }
      ∧ exec .prodget t = .next { t with rspData := v, rspCond := false }

/-- A write to one window of an accumulator changes only that window's bits of its long value (rules R13, R81 (d)). -/
def Obligations.WindowWritesChangeOnlyTheirBits : Prop :=
  ∀ a v s, ∃ th tm tl,
    exec (.regwr (.ach a) v) s = .next th ∧ exec (.regwr (.acm a) v) s = .next tm
      ∧ exec (.regwr (.acl a) v) s = .next tl
      ∧ accNat (th.ac.get a) = accNat (s.ac.get a) % 2 ^ 32 + v.toNat % 2 ^ 8 * 2 ^ 32
      ∧ accNat (tm.ac.get a) =
          accNat (s.ac.get a) / 2 ^ 32 * 2 ^ 32 + v.toNat * 2 ^ 16 + accNat (s.ac.get a) % 2 ^ 16
      ∧ accNat (tl.ac.get a) = accNat (s.ac.get a) / 2 ^ 16 * 2 ^ 16 + v.toNat

/-! ### Multiplier -/

/-- `MUL` answers the exact product, which always fits, and with `w = 1` writes it to the product register (rules
R83, R84, R85). -/
def Obligations.MulAnswersTheExactProduct : Prop :=
  ∀ m w a b s, encode (.mul m w a b) = wordOf ⟨0x10#6, w, 0#3 ++ bitsOfMode m, 0#4, 0#8, 0#8 ++ b ++ a⟩ ∧
    ∃ r : Long, r.toInt = mulInt s.sr m a b
      ∧ exec (.mul m w a b) s = .next { s with
          prod := if w then fieldsOfLong r else s.prod, rspData := r, rspCond := false }

/-- `MAC` answers the product value plus the product, reduced to 40 bits (rules R83, R84, R86). -/
def Obligations.MacAddsTheProduct : Prop :=
  ∀ m w a b s, encode (.mac m w a b) = wordOf ⟨0x11#6, w, 0#3 ++ bitsOfMode m, 0#4, 0#8, 0#8 ++ b ++ a⟩ ∧
    ∃ r : Long, r.toInt = (prodInt s.prod + mulInt s.sr m a b).bmod (2 ^ 40)
      ∧ exec (.mac m w a b) s = .next { s with
          prod := if w then fieldsOfLong r else s.prod, rspData := r, rspCond := false }

/-- `MSUB` answers the product value minus the product, reduced to 40 bits (rules R83, R84, R87). -/
def Obligations.MsubSubtractsTheProduct : Prop :=
  ∀ m w a b s, encode (.msub m w a b) = wordOf ⟨0x12#6, w, 0#3 ++ bitsOfMode m, 0#4, 0#8, 0#8 ++ b ++ a⟩ ∧
    ∃ r : Long, r.toInt = (prodInt s.prod - mulInt s.sr m a b).bmod (2 ^ 40)
      ∧ exec (.msub m w a b) s = .next { s with
          prod := if w then fieldsOfLong r else s.prod, rspData := r, rspCond := false }

/-- `MULX` answers the product of the selected halves in the mode and order of its table (rules R83, R84, R88). -/
def Obligations.MulxMultipliesTheSelectedHalves : Prop :=
  ∀ sa sb w s,
    encode (.mulx sa sb w) =
      wordOf ⟨0x13#6, w, 0#3 ++ BitVec.ofBool sa ++ BitVec.ofBool sb, 0#4, 0#8, 0#40⟩ ∧
    ∃ r : Long,
      r.toInt =
        (match sa, sb with
        | false, false => mulInt s.sr .uu (s.ax.get .i0).l (s.ax.get .i1).l
        | false, true => mulInt s.sr .us (s.ax.get .i0).l (s.ax.get .i1).h
        | true, false => mulInt s.sr .us (s.ax.get .i1).l (s.ax.get .i0).h
        | true, true => mulInt s.sr .ss (s.ax.get .i0).h (s.ax.get .i1).h)
      ∧ exec (.mulx sa sb w) s = .next { s with
          prod := if w then fieldsOfLong r else s.prod, rspData := r, rspCond := false }

/-- The result of `MUL` lies between its two extremes (rule R89 (b)). -/
def Obligations.MulResultIsBounded : Prop :=
  ∀ m w a b s, ∃ t, exec (.mul m w a b) s = .next t
    ∧ -(2 ^ 32 - 2 ^ 16) ≤ t.rspData.toInt ∧ t.rspData.toInt ≤ 2 ^ 33 - 2 ^ 18 + 2

/-- `MAC` and then `MSUB`, both writing, with the same operands restore the product value; `m2` is 0 afterwards and
only the product register has changed (rule R89 (e)). -/
def Obligations.MacThenMsubRestoresTheProduct : Prop :=
  ∀ m a b s, ∃ t u, exec (.mac m true a b) s = .next t ∧ exec (.msub m true a b) t = .next u
    ∧ prodInt u.prod = prodInt s.prod ∧ u.prod.m2 = 0#16
    ∧ u = { s with prod := u.prod, rspData := u.rspData, rspCond := false }

/-! ### Flags and conditions -/

/-- `SR16`: the six comparison flags and `OS` from the result and the inputs, every other bit kept (rule R92). -/
def Obligations.Sr16SetsTheFlags : Prop :=
  ∀ x c o f s,
    encode (.sr16 x c o f) =
      wordOf ⟨0x18#6, false, 0#5, 0#1 ++ BitVec.ofBool f ++ BitVec.ofBool o ++ BitVec.ofBool c, 0#8, 0#24 ++ x⟩ ∧
    ∃ v : Word, exec (.sr16 x c o f) s = .next { s with sr := v, rspData := 0#40, rspCond := false }
      ∧ v.getLsbD 0 = c ∧ v.getLsbD 1 = o
      ∧ (v.getLsbD 2 = true ↔ x.toNat = 0) ∧ (v.getLsbD 3 = true ↔ x.toInt < 0) ∧ v.getLsbD 4 = f
      ∧ (v.getLsbD 5 = true ↔ x.getLsbD 15 = x.getLsbD 14)
      ∧ v.getLsbD 6 = s.sr.getLsbD 6 ∧ v.getLsbD 7 = (s.sr.getLsbD 7 || o)
      ∧ ∀ j, 8 ≤ j → v.getLsbD j = s.sr.getLsbD j

/-- `SR64`: the same from a long result, over-S32 when bits 39:31 are not all equal, top-two from bits 31 and 30
(rule R93). -/
def Obligations.Sr64SetsTheFlags : Prop :=
  ∀ x c o s,
    encode (.sr64 x c o) =
      wordOf ⟨0x19#6, false, 0#5, 0#2 ++ BitVec.ofBool o ++ BitVec.ofBool c, 0#8, x⟩ ∧
    ∃ v : Word, exec (.sr64 x c o) s = .next { s with sr := v, rspData := 0#40, rspCond := false }
      ∧ v.getLsbD 0 = c ∧ v.getLsbD 1 = o
      ∧ (v.getLsbD 2 = true ↔ x.toNat = 0) ∧ (v.getLsbD 3 = true ↔ x.getLsbD 39 = true)
      ∧ (v.getLsbD 4 = true ↔ x.toNat / 2 ^ 31 ≠ 0 ∧ x.toNat / 2 ^ 31 ≠ 0x1FF)
      ∧ (v.getLsbD 5 = true ↔ x.getLsbD 31 = x.getLsbD 30)
      ∧ v.getLsbD 6 = s.sr.getLsbD 6 ∧ v.getLsbD 7 = (s.sr.getLsbD 7 || o)
      ∧ ∀ j, 8 ≤ j → v.getLsbD j = s.sr.getLsbD j

/-- `SRLZ` writes the logic-zero flag and no other bit (rule R94). -/
def Obligations.SrlzWritesOnlyLogicZero : Prop :=
  ∀ b s, encode (.srlz b) = wordOf ⟨0x1A#6, false, 0#5, 0#3 ++ BitVec.ofBool b, 0#8, 0#40⟩ ∧
    ∃ v : Word, exec (.srlz b) s = .next { s with sr := v, rspData := 0#40, rspCond := false }
      ∧ ∀ j, v.getLsbD j = if j = 6 then b else s.sr.getLsbD j

/-- `COND` answers the condition of its code from the flags and changes nothing (rules R95, R96, R97). -/
def Obligations.CondAnswersTheConditionTable : Prop :=
  ∀ cc s, encode (.cond cc) = wordOf ⟨0x1B#6, false, 0#5, bitsOfCond cc, 0#8, 0#40⟩ ∧
    ∃ b, exec (.cond cc) s = .next { s with rspData := 0#40, rspCond := b } ∧
      (b = true ↔
        match cc with
        | .ge => s.sr.getLsbD 1 = s.sr.getLsbD 3
        | .l => s.sr.getLsbD 1 ≠ s.sr.getLsbD 3
        | .g => s.sr.getLsbD 1 = s.sr.getLsbD 3 ∧ s.sr.getLsbD 2 = false
        | .le => s.sr.getLsbD 1 ≠ s.sr.getLsbD 3 ∨ s.sr.getLsbD 2 = true
        | .nz => s.sr.getLsbD 2 = false
        | .z => s.sr.getLsbD 2 = true
        | .nc => s.sr.getLsbD 0 = false
        | .c => s.sr.getLsbD 0 = true
        | .nas => s.sr.getLsbD 4 = false
        | .as => s.sr.getLsbD 4 = true
        | .a => (s.sr.getLsbD 4 = true ∨ s.sr.getLsbD 5 = true) ∧ s.sr.getLsbD 2 = false
        | .na => ¬((s.sr.getLsbD 4 = true ∨ s.sr.getLsbD 5 = true) ∧ s.sr.getLsbD 2 = false)
        | .lnz => s.sr.getLsbD 6 = false
        | .lz => s.sr.getLsbD 6 = true
        | .o => s.sr.getLsbD 1 = true
        | .t => True)

/-- After `SR64` the conditions compare the result with zero, the sense of less and greater inverted by the overflow
input, and condition A is the composite of rule R98 (c) and (d). -/
def Obligations.ConditionsAfterSr64CompareWithZero : Prop :=
  ∀ x c o s, ∃ t, exec (.sr64 x c o) s = .next t ∧
    (∃ u, exec (.cond .z) t = .next u ∧ (u.rspCond = true ↔ x.toInt = 0))
    ∧ (∃ u, exec (.cond .l) t = .next u ∧ (u.rspCond = true ↔ (x.toInt < 0 ↔ o = false)))
    ∧ (∃ u, exec (.cond .g) t = .next u ∧ (u.rspCond = true ↔ (0 ≤ x.toInt ↔ o = false) ∧ x.toInt ≠ 0))
    ∧ (∃ u, exec (.cond .a) t = .next u ∧ (u.rspCond = true ↔
        x.toInt ≠ 0 ∧ (¬(-2 ^ 31 ≤ x.toInt ∧ x.toInt ≤ 2 ^ 31 - 1) ∨ x.getLsbD 31 = x.getLsbD 30)))

/-- The sticky overflow flag, once set, stays set through any sequence of flag commands and conditions (rule
R98 (e)). -/
def Obligations.StickyOverflowSurvivesFlagCommands : Prop :=
  ∀ is s, (∀ i ∈ is, flagCommand i = true) → s.sr.getLsbD 7 = true →
    ∃ t, runCommands is s = .next t ∧ t.sr.getLsbD 7 = true

/-! ### Write-back queue -/

/-- `WBAPPEND` queues the pair and touches no register, or raises the overflow fault on a full queue and changes
nothing else (rules R100 and R101). -/
def Obligations.WbappendQueuesOrFaults : Prop :=
  ∀ i v s, encode (.wbappend i v) = wordOf ⟨0x28#6, false, indexOfReg i, 0#4, 0#8, 0#24 ++ v⟩
    ∧ (s.wbq.length ≠ s.cfg.wbCapacity → exec (.wbappend i v) s = .next { s with
        wbq := s.wbq ++ [(i, v)], rspData := 0#40, rspCond := false })
    ∧ (s.wbq.length = s.cfg.wbCapacity → exec (.wbappend i v) s = .next { s with
        fWbovf := true, rspData := 0#40, rspCond := false })

/-- `WBFLUSH` applies the entries in append order and empties the queue: a flush of `q ++ [e]` is a flush of `q`
followed by the write of `e`, in precise mode of `e`'s value ORed with the register as it is then read, side effects
included (rule R102). -/
def Obligations.WbflushAppliesEntriesInOrder : Prop :=
  ∀ s, encode .wbflush = wordOf ⟨0x29#6, false, 0#5, 0#4, 0#8, 0#40⟩
    ∧ (s.wbq = [] → exec .wbflush s = .next { s with rspData := 0#40, rspCond := false })
    ∧ ∀ q i v, s.wbq = q ++ [(i, v)] →
      ∃ t u, exec .wbflush { s with wbq := q } = .next t ∧ exec .wbflush s = .next u ∧ u.wbq = []
        ∧ (s.precise = false → exec (.regwr i v) t = .next u)
        ∧ (s.precise = true → ∃ r, exec (.regrd i) t = .next r
            ∧ exec (.regwr i (r.rspData.extractLsb' 0 16 ||| v)) r = .next u)

/-- A precise flush of a queued stack write ORs the value into the top in place: the pointer and the backing store
are unchanged and the stack does not grow (rule R103). -/
def Obligations.PreciseFlushOrsTheStackTopInPlace : Prop :=
  ∀ s q k v, StacksOk s → s.precise = true → s.wbq = q ++ [(.st k, v)] →
    ∃ t, exec .wbflush { s with wbq := q } = .next t ∧
      exec .wbflush s = .next { t with
        st := t.st.set k { t.st.get k with top := (t.st.get k).top ||| v } }

/-- `WBZERO` writes zero to the target of every entry in append order, whatever `PRECISE` is, and keeps the queue
(rule R104). -/
def Obligations.WbzeroZeroesEveryTarget : Prop :=
  ∀ s, encode .wbzero = wordOf ⟨0x2A#6, false, 0#5, 0#4, 0#8, 0#40⟩
    ∧ (s.wbq = [] → exec .wbzero s = .next { s with rspData := 0#40, rspCond := false })
    ∧ ∀ q i v, s.wbq = q ++ [(i, v)] →
      ∃ t u, exec .wbzero { s with wbq := q } = .next t ∧ exec (.regwr i 0#16) t = .next u
        ∧ exec .wbzero s = .next { u with wbq := s.wbq }

/-- `WBZEROP` does the same but skips the three windows of one accumulator (rule R105). -/
def Obligations.WbzeropSparesOneAccumulator : Prop :=
  ∀ a s, encode (.wbzerop a) = wordOf ⟨0x2B#6, false, 0#4 ++ BitVec.ofBool (bitOfTwo a), 0#4, 0#8, 0#40⟩
    ∧ (s.wbq = [] → exec (.wbzerop a) s = .next { s with rspData := 0#40, rspCond := false })
    ∧ ∀ q i v, s.wbq = q ++ [(i, v)] →
      ∃ t, exec (.wbzerop a) { s with wbq := q } = .next t
        ∧ ((i = .acl a ∨ i = .acm a ∨ i = .ach a) → exec (.wbzerop a) s = .next { t with wbq := s.wbq })
        ∧ (¬(i = .acl a ∨ i = .acm a ∨ i = .ach a) →
            ∃ u, exec (.regwr i 0#16) t = .next u ∧ exec (.wbzerop a) s = .next { u with wbq := s.wbq })

/-- In precise mode a target zeroed before the flush ends up holding the queued value alone (rules R104 and R107):
one entry, any target but a stack. -/
def Obligations.ZeroedTargetTakesTheQueuedValueAlone : Prop :=
  ∀ s i v, s.precise = true → s.wbq = [(i, v)] → (∀ k, i ≠ .st k) →
    ∃ t u, exec .wbzero s = .next t ∧ exec .wbflush t = .next u
      ∧ exec (.regwr i v) { s with wbq := [] } = .next u

/-! ### Step, control flow, host commands -/

/-- `NOP` is the all-zero word and changes nothing (rule R111). -/
def Obligations.NopChangesNothing : Prop :=
  ∀ s, encode .nop = 0x0000000000000000#64
    ∧ exec .nop s = .next { s with rspData := 0#40, rspCond := false }

/-- `STEP` counts a step and advances the program counter modulo 2^16, or raises `F_WBPENDING` on a non-empty queue
and changes nothing else (rule R112). -/
def Obligations.StepCountsAndAdvancesOrFaults : Prop :=
  ∀ len s, encode (.step len) = wordOf ⟨0x30#6, false, 0#5, 0#4, 0#8, 0#24 ++ len⟩
    ∧ (s.wbq = [] → exec (.step len) s = .next { s with
        stepCnt := s.stepCnt + 1, pc := BitVec.ofNat 16 (s.pc.toNat + len.toNat)
        rspData := 0#40, rspCond := false })
    ∧ (s.wbq ≠ [] → exec (.step len) s = .next { s with
        fWbpending := true, rspData := 0#40, rspCond := false })

/-- `LOOPEND`: inert unless a loop is active and its last word was just executed; then the counter goes down by one
and the body repeats, or, from a counter of one, the three stacks pop and `PC` stays (rule R118). -/
def Obligations.LoopendRepeatsOrPops : Prop :=
  ∀ s, encode .loopend = wordOf ⟨0x31#6, false, 0#5, 0#4, 0#8, 0#40⟩
    ∧ (¬((s.st.get .i2).top ≠ 0#16 ∧ (s.st.get .i3).top ≠ 0#16 ∧ s.pc - 1#16 = (s.st.get .i2).top) →
        exec .loopend s = .next { s with rspData := 0#40, rspCond := false })
    ∧ ((s.st.get .i2).top ≠ 0#16 → s.pc - 1#16 = (s.st.get .i2).top → 2 ≤ (s.st.get .i3).top.toNat →
        exec .loopend s = .next { s with
          st := s.st.set .i3 { s.st.get .i3 with top := BitVec.ofNat 16 ((s.st.get .i3).top.toNat - 1) }
          pc := (s.st.get .i0).top, rspData := 0#40, rspCond := false })
    ∧ ((s.st.get .i2).top ≠ 0#16 → s.pc - 1#16 = (s.st.get .i2).top → (s.st.get .i3).top.toNat = 1 →
        StacksOk s →
        exec .loopend s = .next { s with
          st := ⟨popped s.cfg.stackDepth (s.st.get .i0), s.st.get .i1, popped s.cfg.stackDepth (s.st.get .i2),
            popped s.cfg.stackDepth (s.st.get .i3)⟩
          rspData := 0#40, rspCond := false })

/-- `PCRD` answers the program counter and `PCWR` writes it (rules R113 and R114). -/
def Obligations.PcrdReadsAndPcwrWrites : Prop :=
  ∀ a s, encode .pcrd = wordOf ⟨0x32#6, false, 0#5, 0#4, 0#8, 0#40⟩
    ∧ exec .pcrd s = .next { s with rspData := BitVec.ofNat 40 s.pc.toNat, rspCond := false }
    ∧ encode (.pcwr a) = wordOf ⟨0x33#6, false, 0#5, 0#4, 0#8, 0#24 ++ a⟩
    ∧ exec (.pcwr a) s = .next { s with pc := a, rspData := 0#40, rspCond := false }

/-- `CRRD` stores bit 15 of the program counter in the status bit, changes no other bit of `CR`, and answers what it
stored (rule R120). -/
def Obligations.CrrdReflectsTheTopPcBit : Prop :=
  ∀ s, encode .crrd = wordOf ⟨0x34#6, false, 0#5, 0#4, 0#8, 0#40⟩ ∧
    (s.cfg.valid = true → ∃ v : Word,
      (∀ j, v.getLsbD j = if j = s.cfg.crPctopStatusBit then s.pc.getLsbD 15 else s.cr.getLsbD j)
      ∧ exec .crrd s = .next { s with cr := v, rspData := BitVec.ofNat 40 v.toNat, rspCond := false })

/-- `CRWR`: a value with bit 0 set resets first and is stored with that bit cleared; the init value sets the hint and
is stored with the status bit; any other value is stored (rules R121 and R147). -/
def Obligations.CrwrResetsInitialisesOrStores : Prop :=
  ∀ v s, encode (.crwr v) = wordOf ⟨0x35#6, false, 0#5, 0#4, 0#8, 0#24 ++ v⟩
    ∧ (v.getLsbD 0 = true → ∃ t, exec (.crwr v) s = .next t ∧ ResetValues s t
        ∧ t.cr.toNat = v.toNat - 1 ∧ t.inputs = s.inputs ∧ t.rspData = 0#40 ∧ t.rspCond = false)
    ∧ (v.getLsbD 0 = false → v = s.cfg.crInitValue → ∃ x : Word,
        (∀ j, x.getLsbD j = (v.getLsbD j || decide (j = s.cfg.crInitStatusBit ∧ j < 16)))
        ∧ exec (.crwr v) s = .next { s with
            initHint := true, cr := x, rspData := 0#40, rspCond := false })
    ∧ (v.getLsbD 0 = false → v ≠ s.cfg.crInitValue →
        exec (.crwr v) s = .next { s with cr := v, rspData := 0#40, rspCond := false })

/-- The output `halt` follows the halt bit of `CR`: after a register write to `CR`, and after a host write that does
not reset, it is that bit of the value written, ORed with the status bit of an init write where the two are one bit
(rules R26, R119, R126). -/
def Obligations.HaltFollowsTheControlRegister : Prop :=
  ∀ v s, s.cfg.valid = true → v.getLsbD 0 = false →
    ∃ t u, exec (.regwr .cr v) s = .next t ∧ exec (.crwr v) s = .next u
      ∧ haltOut t = v.getLsbD s.cfg.crHaltBit
      ∧ (haltOut u = true ↔ v.getLsbD s.cfg.crHaltBit = true ∨
          v = s.cfg.crInitValue ∧ s.cfg.crHaltBit = s.cfg.crInitStatusBit)

/-! ### Register access -/

/-- `REGRD` answers the register of its index, zero-extended; a stack index answers the top and pops, no other index
changes anything (rules R28, R124, R125). -/
def Obligations.RegrdAnswersTheRegister : Prop :=
  ∀ i s, encode (.regrd i) = wordOf ⟨0x20#6, false, indexOfReg i, 0#4, 0#8, 0#40⟩ ∧
    match i with
    | .ar n => exec (.regrd i) s = .next { s with rspData := BitVec.ofNat 40 (s.ar.get n).toNat, rspCond := false }
    | .ix n => exec (.regrd i) s = .next { s with rspData := BitVec.ofNat 40 (s.ix.get n).toNat, rspCond := false }
    | .wr n => exec (.regrd i) s = .next { s with rspData := BitVec.ofNat 40 (s.wr.get n).toNat, rspCond := false }
    | .st k => (s.st.get k).ptr < s.cfg.stackDepth → exec (.regrd i) s = .next { s with
        st := s.st.set k (popped s.cfg.stackDepth (s.st.get k))
        rspData := BitVec.ofNat 40 (s.st.get k).top.toNat, rspCond := false }
    | .ach a => exec (.regrd i) s = .next { s with rspData := BitVec.ofNat 40 (s.ac.get a).h.toNat, rspCond := false }
    | .cr => exec (.regrd i) s = .next { s with rspData := BitVec.ofNat 40 s.cr.toNat, rspCond := false }
    | .sr => exec (.regrd i) s = .next { s with rspData := BitVec.ofNat 40 s.sr.toNat, rspCond := false }
    | .prodl => exec (.regrd i) s = .next { s with rspData := BitVec.ofNat 40 s.prod.l.toNat, rspCond := false }
    | .prodm => exec (.regrd i) s = .next { s with rspData := BitVec.ofNat 40 s.prod.m.toNat, rspCond := false }
    | .prodh => exec (.regrd i) s = .next { s with rspData := BitVec.ofNat 40 s.prod.h.toNat, rspCond := false }
    | .prodm2 => exec (.regrd i) s = .next { s with rspData := BitVec.ofNat 40 s.prod.m2.toNat, rspCond := false }
    | .axl x => exec (.regrd i) s = .next { s with rspData := BitVec.ofNat 40 (s.ax.get x).l.toNat, rspCond := false }
    | .axh x => exec (.regrd i) s = .next { s with rspData := BitVec.ofNat 40 (s.ax.get x).h.toNat, rspCond := false }
    | .acl a => exec (.regrd i) s = .next { s with rspData := BitVec.ofNat 40 (s.ac.get a).l.toNat, rspCond := false }
    | .acm a => exec (.regrd i) s = .next { s with rspData := BitVec.ofNat 40 (s.ac.get a).m.toNat, rspCond := false }

/-- `REGWR` writes the register of its index and no other; a high window takes the sign extension of the low 8 bits, a
stack index pushes (rules R27, R126, R127). -/
def Obligations.RegwrWritesTheRegister : Prop :=
  ∀ i v s, encode (.regwr i v) = wordOf ⟨0x22#6, false, indexOfReg i, 0#4, 0#8, 0#24 ++ v⟩ ∧
    match i with
    | .ar n => exec (.regwr i v) s = .next { s with ar := s.ar.set n v, rspData := 0#40, rspCond := false }
    | .ix n => exec (.regwr i v) s = .next { s with ix := s.ix.set n v, rspData := 0#40, rspCond := false }
    | .wr n => exec (.regwr i v) s = .next { s with wr := s.wr.set n v, rspData := 0#40, rspCond := false }
    | .st k => (s.st.get k).ptr < s.cfg.stackDepth → exec (.regwr i v) s = .next { s with
        st := s.st.set k (pushed s.cfg.stackDepth v (s.st.get k)), rspData := 0#40, rspCond := false }
    | .ach a => exec (.regwr i v) s = .next { s with
        ac := s.ac.set a ⟨BitVec.ofInt 16 (s8 v), (s.ac.get a).m, (s.ac.get a).l⟩, rspData := 0#40, rspCond := false }
    | .cr => exec (.regwr i v) s = .next { s with cr := v, rspData := 0#40, rspCond := false }
    | .sr => exec (.regwr i v) s = .next { s with sr := v, rspData := 0#40, rspCond := false }
    | .prodl => exec (.regwr i v) s = .next { s with prod := { s.prod with l := v }, rspData := 0#40, rspCond := false }
    | .prodm => exec (.regwr i v) s = .next { s with prod := { s.prod with m := v }, rspData := 0#40, rspCond := false }
    | .prodh => exec (.regwr i v) s = .next { s with prod := { s.prod with h := v }, rspData := 0#40, rspCond := false }
    | .prodm2 => exec (.regwr i v) s = .next { s with prod := { s.prod with m2 := v }, rspData := 0#40, rspCond := false }
    | .axl x => exec (.regwr i v) s = .next { s with
        ax := s.ax.set x ⟨(s.ax.get x).h, v⟩, rspData := 0#40, rspCond := false }
    | .axh x => exec (.regwr i v) s = .next { s with
        ax := s.ax.set x ⟨v, (s.ax.get x).l⟩, rspData := 0#40, rspCond := false }
    | .acl a => exec (.regwr i v) s = .next { s with
        ac := s.ac.set a ⟨(s.ac.get a).h, (s.ac.get a).m, v⟩, rspData := 0#40, rspCond := false }
    | .acm a => exec (.regwr i v) s = .next { s with
        ac := s.ac.set a ⟨(s.ac.get a).h, v, (s.ac.get a).l⟩, rspData := 0#40, rspCond := false }

/-- A pop after a push answers the value pushed and restores the stack but for the one backing entry the push wrote,
which keeps the old top (rule R29). -/
def Obligations.PopUndoesPush : Prop :=
  ∀ k v s, StackOk s.cfg.stackDepth (s.st.get k) → ∃ t u,
    exec (.regwr (.st k) v) s = .next t ∧ exec (.regrd (.st k)) t = .next u
      ∧ u = { s with
          st := s.st.set k { s.st.get k with
            mem := (s.st.get k).mem.set (((s.st.get k).ptr + 1) % s.cfg.stackDepth) (s.st.get k).top }
          rspData := BitVec.ofNat 40 v.toNat, rspCond := false }

/-- `REGRDS`: with `SR.SXM = 1` the accumulator's value divided by 2^16, clamped to the 16-bit signed range; with
`SR.SXM = 0` the mid window as it is; the accumulator is not changed (rule R128). -/
def Obligations.RegrdsSaturatesTheMidWindow : Prop :=
  ∀ a s, encode (.regrds a) = wordOf ⟨0x21#6, false, 0#4 ++ BitVec.ofBool (bitOfTwo a), 0#4, 0#8, 0#40⟩ ∧
    ∃ m : Word, exec (.regrds a) s = .next { s with rspData := BitVec.ofNat 40 m.toNat, rspCond := false }
      ∧ (s.sr.getLsbD 14 = false → m = (s.ac.get a).m)
      ∧ (s.sr.getLsbD 14 = true →
          m.toInt = max (-0x8000) (min 0x7FFF ((accNat (s.ac.get a) : Int).bmod (2 ^ 40) / 2 ^ 16)))
end

