-- ==== Sys2Proof/Laws/Decode.lean ====
section
/-! SUPPORT. The small lemmas of the command word: splitting and joining the fields, and the number of each register,
mode, condition and operation code read both ways. -/

namespace Sys2Proof

/-- Every bit of a joined word, by the field it lies in (rule R51). -/
theorem wordOf_getLsbD (c : Fields) (j : Nat) :
    (wordOf c).getLsbD j =
      if j < 40 then c.d.getLsbD j
      else if j < 48 then c.z.getLsbD (j - 40)
      else if j < 52 then c.f.getLsbD (j - 48)
      else if j < 57 then c.r.getLsbD (j - 52)
      else if j < 58 then c.q
      else c.op.getLsbD (j - 58) := by
  simp only [wordOf, BitVec.getLsbD_append, BitVec.getLsbD_ofBool]
  split_ifs <;> first
    | omega
    | rfl
    | (rw [show decide (j - 40 - 8 - 4 - 5 = 0) = true from by simp; omega]; rfl)

theorem fieldsOf_wordOf (c : Fields) : fieldsOf (wordOf c) = c := by
  obtain ⟨op, q, r, f, z, d⟩ := c
  simp only [fieldsOf, Fields.mk.injEq]
  refine ⟨?_, by rw [wordOf_getLsbD]; rfl, ?_, ?_, ?_, ?_⟩ <;>
    (apply BitVec.eq_of_getLsbD_eq; intro j hj
     rw [BitVec.getLsbD_extractLsb', wordOf_getLsbD]
     simp only [hj, decide_true, Bool.true_and]
     split_ifs <;> first | omega | (congr 1; omega))

theorem wordOf_fieldsOf (w : BitVec 64) : wordOf (fieldsOf w) = w := by
  apply BitVec.eq_of_getLsbD_eq
  intro j hj
  rw [wordOf_getLsbD]
  simp only [fieldsOf, BitVec.getLsbD_extractLsb']
  split_ifs <;> first
    | (congr 1; omega)
    | (rw [decide_eq_true (by omega), Bool.true_and]; congr 1; omega)

/-- A command's word splits into the fields it was written with. -/
theorem fieldsOf_encode (i : Instr) : fieldsOf (encode i) = encodeFields i :=
  fieldsOf_wordOf _

theorem opcodeOf_codeOf (o : Opcode) : opcodeOf (codeOf o) = some o := by
  cases o <;> rfl

theorem codeOf_of_opcodeOf {c : BitVec 6} {o : Opcode} (h : opcodeOf c = some o) : codeOf o = c := by
  simpa using List.find?_some h

theorem fourOfBits_bitsOfFour (n : Four) : fourOfBits (bitsOfFour n) = n := by cases n <;> rfl
theorem bitsOfFour_fourOfBits : ∀ b, bitsOfFour (fourOfBits b) = b := by decide
theorem twoOfBit_bitOfTwo (a : Two) : twoOfBit (bitOfTwo a) = a := by cases a <;> rfl
theorem bitOfTwo_twoOfBit (b : Bool) : bitOfTwo (twoOfBit b) = b := by cases b <;> rfl

theorem regOfIndex_indexOfReg (i : Reg) : regOfIndex (indexOfReg i) = i := by
  cases i <;> first | rfl | (rename_i n; cases n <;> rfl)
theorem indexOfReg_regOfIndex : ∀ b, indexOfReg (regOfIndex b) = b := by decide

theorem modeOfBits_bitsOfMode (m : MulMode) : modeOfBits (bitsOfMode m) = some m := by cases m <;> rfl
theorem bitsOfMode_of_modeOfBits : ∀ b m, modeOfBits b = some m → bitsOfMode m = b := by
  intro b m; cases m <;> revert b <;> decide

theorem condOfBits_bitsOfCond (cc : Cond) : condOfBits (bitsOfCond cc) = cc := by cases cc <;> rfl
theorem bitsOfCond_condOfBits : ∀ b, bitsOfCond (condOfBits b) = b := by decide

end Sys2Proof
end

