-- ==== Sys2Proof/Laws/State.lean ====
section
/-! SUPPORT. One lemma per field per named update of the state, true by `rfl` and in the simp set, and the laws of the
two register containers, so that no later proof unfolds an update. -/

namespace Sys2Proof

variable {α : Type}

@[simp] theorem Bank2.get_set_self (b : Bank2 α) (i : Two) (x : α) : (b.set i x).get i = x := by cases i <;> rfl
theorem Bank2.get_set_ne (b : Bank2 α) {i j : Two} (x : α) (h : j ≠ i) : (b.set i x).get j = b.get j := by
  cases i <;> cases j <;> first | rfl | exact absurd rfl h
theorem Bank2.get_set (b : Bank2 α) (i j : Two) (x : α) : (b.set i x).get j = if j = i then x else b.get j := by
  cases i <;> cases j <;> rfl
@[simp] theorem Bank2.set_get (b : Bank2 α) (i : Two) : b.set i (b.get i) = b := by cases i <;> rfl
@[simp] theorem Bank2.set_set (b : Bank2 α) (i : Two) (x y : α) : (b.set i x).set i y = b.set i y := by cases i <;> rfl
@[simp] theorem Bank4.get_set_self (b : Bank4 α) (i : Four) (x : α) : (b.set i x).get i = x := by cases i <;> rfl
theorem Bank4.get_set_ne (b : Bank4 α) {i j : Four} (x : α) (h : j ≠ i) : (b.set i x).get j = b.get j := by
  cases i <;> cases j <;> first | rfl | exact absurd rfl h
theorem Bank4.get_set (b : Bank4 α) (i j : Four) (x : α) : (b.set i x).get j = if j = i then x else b.get j := by
  cases i <;> cases j <;> rfl
@[simp] theorem Bank4.set_get (b : Bank4 α) (i : Four) : b.set i (b.get i) = b := by cases i <;> rfl
@[simp] theorem Bank4.set_set (b : Bank4 α) (i : Four) (x y : α) : (b.set i x).set i y = b.set i y := by cases i <;> rfl

namespace Machine

/-! ### `respond` -/

@[simp] theorem respond_ac (v : Long) (s : State) : (respond v s).ac = s.ac := rfl
@[simp] theorem respond_prod (v : Long) (s : State) : (respond v s).prod = s.prod := rfl
@[simp] theorem respond_ar (v : Long) (s : State) : (respond v s).ar = s.ar := rfl
@[simp] theorem respond_ix (v : Long) (s : State) : (respond v s).ix = s.ix := rfl
@[simp] theorem respond_wr (v : Long) (s : State) : (respond v s).wr = s.wr := rfl
@[simp] theorem respond_ax (v : Long) (s : State) : (respond v s).ax = s.ax := rfl
@[simp] theorem respond_sr (v : Long) (s : State) : (respond v s).sr = s.sr := rfl
@[simp] theorem respond_cr (v : Long) (s : State) : (respond v s).cr = s.cr := rfl
@[simp] theorem respond_st (v : Long) (s : State) : (respond v s).st = s.st := rfl
@[simp] theorem respond_pc (v : Long) (s : State) : (respond v s).pc = s.pc := rfl
@[simp] theorem respond_stepCnt (v : Long) (s : State) : (respond v s).stepCnt = s.stepCnt := rfl
@[simp] theorem respond_wbq (v : Long) (s : State) : (respond v s).wbq = s.wbq := rfl
@[simp] theorem respond_initHint (v : Long) (s : State) : (respond v s).initHint = s.initHint := rfl
@[simp] theorem respond_fWbovf (v : Long) (s : State) : (respond v s).fWbovf = s.fWbovf := rfl
@[simp] theorem respond_fWbpending (v : Long) (s : State) : (respond v s).fWbpending = s.fWbpending := rfl
@[simp] theorem respond_wBadcmd (v : Long) (s : State) : (respond v s).wBadcmd = s.wBadcmd := rfl
@[simp] theorem respond_precise (v : Long) (s : State) : (respond v s).precise = s.precise := rfl
@[simp] theorem respond_cfgPrecise (v : Long) (s : State) : (respond v s).cfgPrecise = s.cfgPrecise := rfl
@[simp] theorem respond_inputs (v : Long) (s : State) : (respond v s).inputs = s.inputs := rfl
@[simp] theorem respond_rspData (v : Long) (s : State) : (respond v s).rspData = v := rfl
@[simp] theorem respond_rspCond (v : Long) (s : State) : (respond v s).rspCond = false := rfl
@[simp] theorem respond_cfg (v : Long) (s : State) : (respond v s).cfg = s.cfg := rfl
@[simp] theorem respond_resetCount (v : Long) (s : State) : (respond v s).resetCount = s.resetCount := rfl

/-! ### `raiseFault .wbovf` -/

@[simp] theorem raiseFault_wbovf_ac (s : State) : (raiseFault .wbovf s).ac = s.ac := rfl
@[simp] theorem raiseFault_wbovf_prod (s : State) : (raiseFault .wbovf s).prod = s.prod := rfl
@[simp] theorem raiseFault_wbovf_ar (s : State) : (raiseFault .wbovf s).ar = s.ar := rfl
@[simp] theorem raiseFault_wbovf_ix (s : State) : (raiseFault .wbovf s).ix = s.ix := rfl
@[simp] theorem raiseFault_wbovf_wr (s : State) : (raiseFault .wbovf s).wr = s.wr := rfl
@[simp] theorem raiseFault_wbovf_ax (s : State) : (raiseFault .wbovf s).ax = s.ax := rfl
@[simp] theorem raiseFault_wbovf_sr (s : State) : (raiseFault .wbovf s).sr = s.sr := rfl
@[simp] theorem raiseFault_wbovf_cr (s : State) : (raiseFault .wbovf s).cr = s.cr := rfl
@[simp] theorem raiseFault_wbovf_st (s : State) : (raiseFault .wbovf s).st = s.st := rfl
@[simp] theorem raiseFault_wbovf_pc (s : State) : (raiseFault .wbovf s).pc = s.pc := rfl
@[simp] theorem raiseFault_wbovf_stepCnt (s : State) : (raiseFault .wbovf s).stepCnt = s.stepCnt := rfl
@[simp] theorem raiseFault_wbovf_wbq (s : State) : (raiseFault .wbovf s).wbq = s.wbq := rfl
@[simp] theorem raiseFault_wbovf_initHint (s : State) : (raiseFault .wbovf s).initHint = s.initHint := rfl
@[simp] theorem raiseFault_wbovf_fWbovf (s : State) : (raiseFault .wbovf s).fWbovf = true := rfl
@[simp] theorem raiseFault_wbovf_fWbpending (s : State) : (raiseFault .wbovf s).fWbpending = s.fWbpending := rfl
@[simp] theorem raiseFault_wbovf_wBadcmd (s : State) : (raiseFault .wbovf s).wBadcmd = s.wBadcmd := rfl
@[simp] theorem raiseFault_wbovf_precise (s : State) : (raiseFault .wbovf s).precise = s.precise := rfl
@[simp] theorem raiseFault_wbovf_cfgPrecise (s : State) : (raiseFault .wbovf s).cfgPrecise = s.cfgPrecise := rfl
@[simp] theorem raiseFault_wbovf_inputs (s : State) : (raiseFault .wbovf s).inputs = s.inputs := rfl
@[simp] theorem raiseFault_wbovf_rspData (s : State) : (raiseFault .wbovf s).rspData = 0#40 := rfl
@[simp] theorem raiseFault_wbovf_rspCond (s : State) : (raiseFault .wbovf s).rspCond = false := rfl
@[simp] theorem raiseFault_wbovf_cfg (s : State) : (raiseFault .wbovf s).cfg = s.cfg := rfl
@[simp] theorem raiseFault_wbovf_resetCount (s : State) : (raiseFault .wbovf s).resetCount = s.resetCount := rfl

/-! ### `raiseFault .wbpending` -/

@[simp] theorem raiseFault_wbpending_ac (s : State) : (raiseFault .wbpending s).ac = s.ac := rfl
@[simp] theorem raiseFault_wbpending_prod (s : State) : (raiseFault .wbpending s).prod = s.prod := rfl
@[simp] theorem raiseFault_wbpending_ar (s : State) : (raiseFault .wbpending s).ar = s.ar := rfl
@[simp] theorem raiseFault_wbpending_ix (s : State) : (raiseFault .wbpending s).ix = s.ix := rfl
@[simp] theorem raiseFault_wbpending_wr (s : State) : (raiseFault .wbpending s).wr = s.wr := rfl
@[simp] theorem raiseFault_wbpending_ax (s : State) : (raiseFault .wbpending s).ax = s.ax := rfl
@[simp] theorem raiseFault_wbpending_sr (s : State) : (raiseFault .wbpending s).sr = s.sr := rfl
@[simp] theorem raiseFault_wbpending_cr (s : State) : (raiseFault .wbpending s).cr = s.cr := rfl
@[simp] theorem raiseFault_wbpending_st (s : State) : (raiseFault .wbpending s).st = s.st := rfl
@[simp] theorem raiseFault_wbpending_pc (s : State) : (raiseFault .wbpending s).pc = s.pc := rfl
@[simp] theorem raiseFault_wbpending_stepCnt (s : State) : (raiseFault .wbpending s).stepCnt = s.stepCnt := rfl
@[simp] theorem raiseFault_wbpending_wbq (s : State) : (raiseFault .wbpending s).wbq = s.wbq := rfl
@[simp] theorem raiseFault_wbpending_initHint (s : State) : (raiseFault .wbpending s).initHint = s.initHint := rfl
@[simp] theorem raiseFault_wbpending_fWbovf (s : State) : (raiseFault .wbpending s).fWbovf = s.fWbovf := rfl
@[simp] theorem raiseFault_wbpending_fWbpending (s : State) : (raiseFault .wbpending s).fWbpending = true := rfl
@[simp] theorem raiseFault_wbpending_wBadcmd (s : State) : (raiseFault .wbpending s).wBadcmd = s.wBadcmd := rfl
@[simp] theorem raiseFault_wbpending_precise (s : State) : (raiseFault .wbpending s).precise = s.precise := rfl
@[simp] theorem raiseFault_wbpending_cfgPrecise (s : State) : (raiseFault .wbpending s).cfgPrecise = s.cfgPrecise := rfl
@[simp] theorem raiseFault_wbpending_inputs (s : State) : (raiseFault .wbpending s).inputs = s.inputs := rfl
@[simp] theorem raiseFault_wbpending_rspData (s : State) : (raiseFault .wbpending s).rspData = 0#40 := rfl
@[simp] theorem raiseFault_wbpending_rspCond (s : State) : (raiseFault .wbpending s).rspCond = false := rfl
@[simp] theorem raiseFault_wbpending_cfg (s : State) : (raiseFault .wbpending s).cfg = s.cfg := rfl
@[simp] theorem raiseFault_wbpending_resetCount (s : State) : (raiseFault .wbpending s).resetCount = s.resetCount := rfl

/-! ### `ignoreCommand` -/

@[simp] theorem ignoreCommand_ac (s : State) : (ignoreCommand s).ac = s.ac := rfl
@[simp] theorem ignoreCommand_prod (s : State) : (ignoreCommand s).prod = s.prod := rfl
@[simp] theorem ignoreCommand_ar (s : State) : (ignoreCommand s).ar = s.ar := rfl
@[simp] theorem ignoreCommand_ix (s : State) : (ignoreCommand s).ix = s.ix := rfl
@[simp] theorem ignoreCommand_wr (s : State) : (ignoreCommand s).wr = s.wr := rfl
@[simp] theorem ignoreCommand_ax (s : State) : (ignoreCommand s).ax = s.ax := rfl
@[simp] theorem ignoreCommand_sr (s : State) : (ignoreCommand s).sr = s.sr := rfl
@[simp] theorem ignoreCommand_cr (s : State) : (ignoreCommand s).cr = s.cr := rfl
@[simp] theorem ignoreCommand_st (s : State) : (ignoreCommand s).st = s.st := rfl
@[simp] theorem ignoreCommand_pc (s : State) : (ignoreCommand s).pc = s.pc := rfl
@[simp] theorem ignoreCommand_stepCnt (s : State) : (ignoreCommand s).stepCnt = s.stepCnt := rfl
@[simp] theorem ignoreCommand_wbq (s : State) : (ignoreCommand s).wbq = s.wbq := rfl
@[simp] theorem ignoreCommand_initHint (s : State) : (ignoreCommand s).initHint = s.initHint := rfl
@[simp] theorem ignoreCommand_fWbovf (s : State) : (ignoreCommand s).fWbovf = s.fWbovf := rfl
@[simp] theorem ignoreCommand_fWbpending (s : State) : (ignoreCommand s).fWbpending = s.fWbpending := rfl
@[simp] theorem ignoreCommand_wBadcmd (s : State) : (ignoreCommand s).wBadcmd = s.wBadcmd := rfl
@[simp] theorem ignoreCommand_precise (s : State) : (ignoreCommand s).precise = s.precise := rfl
@[simp] theorem ignoreCommand_cfgPrecise (s : State) : (ignoreCommand s).cfgPrecise = s.cfgPrecise := rfl
@[simp] theorem ignoreCommand_inputs (s : State) : (ignoreCommand s).inputs = s.inputs := rfl
@[simp] theorem ignoreCommand_rspData (s : State) : (ignoreCommand s).rspData = 0#40 := rfl
@[simp] theorem ignoreCommand_rspCond (s : State) : (ignoreCommand s).rspCond = false := rfl
@[simp] theorem ignoreCommand_cfg (s : State) : (ignoreCommand s).cfg = s.cfg := rfl
@[simp] theorem ignoreCommand_resetCount (s : State) : (ignoreCommand s).resetCount = s.resetCount := rfl

/-! ### `badCommand` -/

@[simp] theorem badCommand_ac (s : State) : (badCommand s).ac = s.ac := rfl
@[simp] theorem badCommand_prod (s : State) : (badCommand s).prod = s.prod := rfl
@[simp] theorem badCommand_ar (s : State) : (badCommand s).ar = s.ar := rfl
@[simp] theorem badCommand_ix (s : State) : (badCommand s).ix = s.ix := rfl
@[simp] theorem badCommand_wr (s : State) : (badCommand s).wr = s.wr := rfl
@[simp] theorem badCommand_ax (s : State) : (badCommand s).ax = s.ax := rfl
@[simp] theorem badCommand_sr (s : State) : (badCommand s).sr = s.sr := rfl
@[simp] theorem badCommand_cr (s : State) : (badCommand s).cr = s.cr := rfl
@[simp] theorem badCommand_st (s : State) : (badCommand s).st = s.st := rfl
@[simp] theorem badCommand_pc (s : State) : (badCommand s).pc = s.pc := rfl
@[simp] theorem badCommand_stepCnt (s : State) : (badCommand s).stepCnt = s.stepCnt := rfl
@[simp] theorem badCommand_wbq (s : State) : (badCommand s).wbq = s.wbq := rfl
@[simp] theorem badCommand_initHint (s : State) : (badCommand s).initHint = s.initHint := rfl
@[simp] theorem badCommand_fWbovf (s : State) : (badCommand s).fWbovf = s.fWbovf := rfl
@[simp] theorem badCommand_fWbpending (s : State) : (badCommand s).fWbpending = s.fWbpending := rfl
@[simp] theorem badCommand_wBadcmd (s : State) : (badCommand s).wBadcmd = true := rfl
@[simp] theorem badCommand_precise (s : State) : (badCommand s).precise = s.precise := rfl
@[simp] theorem badCommand_cfgPrecise (s : State) : (badCommand s).cfgPrecise = s.cfgPrecise := rfl
@[simp] theorem badCommand_inputs (s : State) : (badCommand s).inputs = s.inputs := rfl
@[simp] theorem badCommand_rspData (s : State) : (badCommand s).rspData = 0#40 := rfl
@[simp] theorem badCommand_rspCond (s : State) : (badCommand s).rspCond = false := rfl
@[simp] theorem badCommand_cfg (s : State) : (badCommand s).cfg = s.cfg := rfl
@[simp] theorem badCommand_resetCount (s : State) : (badCommand s).resetCount = s.resetCount := rfl

/-! ### `push` -/

@[simp] theorem push_ac (k : Four) (v : Word) (s : State) : (push k v s).ac = s.ac := rfl
@[simp] theorem push_prod (k : Four) (v : Word) (s : State) : (push k v s).prod = s.prod := rfl
@[simp] theorem push_ar (k : Four) (v : Word) (s : State) : (push k v s).ar = s.ar := rfl
@[simp] theorem push_ix (k : Four) (v : Word) (s : State) : (push k v s).ix = s.ix := rfl
@[simp] theorem push_wr (k : Four) (v : Word) (s : State) : (push k v s).wr = s.wr := rfl
@[simp] theorem push_ax (k : Four) (v : Word) (s : State) : (push k v s).ax = s.ax := rfl
@[simp] theorem push_sr (k : Four) (v : Word) (s : State) : (push k v s).sr = s.sr := rfl
@[simp] theorem push_cr (k : Four) (v : Word) (s : State) : (push k v s).cr = s.cr := rfl
@[simp] theorem push_st (k : Four) (v : Word) (s : State) : (push k v s).st = s.st.set k (pushStack s.cfg.stackDepth v (s.st.get k)) := rfl
@[simp] theorem push_pc (k : Four) (v : Word) (s : State) : (push k v s).pc = s.pc := rfl
@[simp] theorem push_stepCnt (k : Four) (v : Word) (s : State) : (push k v s).stepCnt = s.stepCnt := rfl
@[simp] theorem push_wbq (k : Four) (v : Word) (s : State) : (push k v s).wbq = s.wbq := rfl
@[simp] theorem push_initHint (k : Four) (v : Word) (s : State) : (push k v s).initHint = s.initHint := rfl
@[simp] theorem push_fWbovf (k : Four) (v : Word) (s : State) : (push k v s).fWbovf = s.fWbovf := rfl
@[simp] theorem push_fWbpending (k : Four) (v : Word) (s : State) : (push k v s).fWbpending = s.fWbpending := rfl
@[simp] theorem push_wBadcmd (k : Four) (v : Word) (s : State) : (push k v s).wBadcmd = s.wBadcmd := rfl
@[simp] theorem push_precise (k : Four) (v : Word) (s : State) : (push k v s).precise = s.precise := rfl
@[simp] theorem push_cfgPrecise (k : Four) (v : Word) (s : State) : (push k v s).cfgPrecise = s.cfgPrecise := rfl
@[simp] theorem push_inputs (k : Four) (v : Word) (s : State) : (push k v s).inputs = s.inputs := rfl
@[simp] theorem push_rspData (k : Four) (v : Word) (s : State) : (push k v s).rspData = s.rspData := rfl
@[simp] theorem push_rspCond (k : Four) (v : Word) (s : State) : (push k v s).rspCond = s.rspCond := rfl
@[simp] theorem push_cfg (k : Four) (v : Word) (s : State) : (push k v s).cfg = s.cfg := rfl
@[simp] theorem push_resetCount (k : Four) (v : Word) (s : State) : (push k v s).resetCount = s.resetCount := rfl

/-! ### `pop` -/

@[simp] theorem pop_ac (k : Four) (s : State) : (pop k s).ac = s.ac := rfl
@[simp] theorem pop_prod (k : Four) (s : State) : (pop k s).prod = s.prod := rfl
@[simp] theorem pop_ar (k : Four) (s : State) : (pop k s).ar = s.ar := rfl
@[simp] theorem pop_ix (k : Four) (s : State) : (pop k s).ix = s.ix := rfl
@[simp] theorem pop_wr (k : Four) (s : State) : (pop k s).wr = s.wr := rfl
@[simp] theorem pop_ax (k : Four) (s : State) : (pop k s).ax = s.ax := rfl
@[simp] theorem pop_sr (k : Four) (s : State) : (pop k s).sr = s.sr := rfl
@[simp] theorem pop_cr (k : Four) (s : State) : (pop k s).cr = s.cr := rfl
@[simp] theorem pop_st (k : Four) (s : State) : (pop k s).st = s.st.set k (popStack s.cfg.stackDepth (s.st.get k)) := rfl
@[simp] theorem pop_pc (k : Four) (s : State) : (pop k s).pc = s.pc := rfl
@[simp] theorem pop_stepCnt (k : Four) (s : State) : (pop k s).stepCnt = s.stepCnt := rfl
@[simp] theorem pop_wbq (k : Four) (s : State) : (pop k s).wbq = s.wbq := rfl
@[simp] theorem pop_initHint (k : Four) (s : State) : (pop k s).initHint = s.initHint := rfl
@[simp] theorem pop_fWbovf (k : Four) (s : State) : (pop k s).fWbovf = s.fWbovf := rfl
@[simp] theorem pop_fWbpending (k : Four) (s : State) : (pop k s).fWbpending = s.fWbpending := rfl
@[simp] theorem pop_wBadcmd (k : Four) (s : State) : (pop k s).wBadcmd = s.wBadcmd := rfl
@[simp] theorem pop_precise (k : Four) (s : State) : (pop k s).precise = s.precise := rfl
@[simp] theorem pop_cfgPrecise (k : Four) (s : State) : (pop k s).cfgPrecise = s.cfgPrecise := rfl
@[simp] theorem pop_inputs (k : Four) (s : State) : (pop k s).inputs = s.inputs := rfl
@[simp] theorem pop_rspData (k : Four) (s : State) : (pop k s).rspData = s.rspData := rfl
@[simp] theorem pop_rspCond (k : Four) (s : State) : (pop k s).rspCond = s.rspCond := rfl
@[simp] theorem pop_cfg (k : Four) (s : State) : (pop k s).cfg = s.cfg := rfl
@[simp] theorem pop_resetCount (k : Four) (s : State) : (pop k s).resetCount = s.resetCount := rfl

/-! ### `seeClock` -/

@[simp] theorem seeClock_ac (c : InputClock) (rest : List InputClock) (s : State) : (seeClock c rest s).ac = s.ac := rfl
@[simp] theorem seeClock_prod (c : InputClock) (rest : List InputClock) (s : State) : (seeClock c rest s).prod = s.prod := rfl
@[simp] theorem seeClock_ar (c : InputClock) (rest : List InputClock) (s : State) : (seeClock c rest s).ar = s.ar := rfl
@[simp] theorem seeClock_ix (c : InputClock) (rest : List InputClock) (s : State) : (seeClock c rest s).ix = s.ix := rfl
@[simp] theorem seeClock_wr (c : InputClock) (rest : List InputClock) (s : State) : (seeClock c rest s).wr = s.wr := rfl
@[simp] theorem seeClock_ax (c : InputClock) (rest : List InputClock) (s : State) : (seeClock c rest s).ax = s.ax := rfl
@[simp] theorem seeClock_sr (c : InputClock) (rest : List InputClock) (s : State) : (seeClock c rest s).sr = s.sr := rfl
@[simp] theorem seeClock_cr (c : InputClock) (rest : List InputClock) (s : State) : (seeClock c rest s).cr = s.cr := rfl
@[simp] theorem seeClock_st (c : InputClock) (rest : List InputClock) (s : State) : (seeClock c rest s).st = s.st := rfl
@[simp] theorem seeClock_pc (c : InputClock) (rest : List InputClock) (s : State) : (seeClock c rest s).pc = s.pc := rfl
@[simp] theorem seeClock_stepCnt (c : InputClock) (rest : List InputClock) (s : State) : (seeClock c rest s).stepCnt = s.stepCnt := rfl
@[simp] theorem seeClock_wbq (c : InputClock) (rest : List InputClock) (s : State) : (seeClock c rest s).wbq = s.wbq := rfl
@[simp] theorem seeClock_initHint (c : InputClock) (rest : List InputClock) (s : State) : (seeClock c rest s).initHint = s.initHint := rfl
@[simp] theorem seeClock_fWbovf (c : InputClock) (rest : List InputClock) (s : State) : (seeClock c rest s).fWbovf = s.fWbovf := rfl
@[simp] theorem seeClock_fWbpending (c : InputClock) (rest : List InputClock) (s : State) : (seeClock c rest s).fWbpending = s.fWbpending := rfl
@[simp] theorem seeClock_wBadcmd (c : InputClock) (rest : List InputClock) (s : State) : (seeClock c rest s).wBadcmd = s.wBadcmd := rfl
@[simp] theorem seeClock_precise (c : InputClock) (rest : List InputClock) (s : State) : (seeClock c rest s).precise = s.precise := rfl
@[simp] theorem seeClock_cfgPrecise (c : InputClock) (rest : List InputClock) (s : State) : (seeClock c rest s).cfgPrecise = c.cfgPrecise := rfl
@[simp] theorem seeClock_inputs (c : InputClock) (rest : List InputClock) (s : State) : (seeClock c rest s).inputs = rest := rfl
@[simp] theorem seeClock_rspData (c : InputClock) (rest : List InputClock) (s : State) : (seeClock c rest s).rspData = s.rspData := rfl
@[simp] theorem seeClock_rspCond (c : InputClock) (rest : List InputClock) (s : State) : (seeClock c rest s).rspCond = s.rspCond := rfl
@[simp] theorem seeClock_cfg (c : InputClock) (rest : List InputClock) (s : State) : (seeClock c rest s).cfg = s.cfg := rfl
@[simp] theorem seeClock_resetCount (c : InputClock) (rest : List InputClock) (s : State) : (seeClock c rest s).resetCount = s.resetCount := rfl

/-! ### `withFetchWord` -/

@[simp] theorem withFetchWord_ac (s : State) (nbits w : Nat) : (s.withFetchWord nbits w).ac = s.ac := rfl
@[simp] theorem withFetchWord_prod (s : State) (nbits w : Nat) : (s.withFetchWord nbits w).prod = s.prod := rfl
@[simp] theorem withFetchWord_ar (s : State) (nbits w : Nat) : (s.withFetchWord nbits w).ar = s.ar := rfl
@[simp] theorem withFetchWord_ix (s : State) (nbits w : Nat) : (s.withFetchWord nbits w).ix = s.ix := rfl
@[simp] theorem withFetchWord_wr (s : State) (nbits w : Nat) : (s.withFetchWord nbits w).wr = s.wr := rfl
@[simp] theorem withFetchWord_ax (s : State) (nbits w : Nat) : (s.withFetchWord nbits w).ax = s.ax := rfl
@[simp] theorem withFetchWord_sr (s : State) (nbits w : Nat) : (s.withFetchWord nbits w).sr = s.sr := rfl
@[simp] theorem withFetchWord_cr (s : State) (nbits w : Nat) : (s.withFetchWord nbits w).cr = s.cr := rfl
@[simp] theorem withFetchWord_st (s : State) (nbits w : Nat) : (s.withFetchWord nbits w).st = s.st := rfl
@[simp] theorem withFetchWord_pc (s : State) (nbits w : Nat) : (s.withFetchWord nbits w).pc = s.pc := rfl
@[simp] theorem withFetchWord_stepCnt (s : State) (nbits w : Nat) : (s.withFetchWord nbits w).stepCnt = s.stepCnt := rfl
@[simp] theorem withFetchWord_wbq (s : State) (nbits w : Nat) : (s.withFetchWord nbits w).wbq = s.wbq := rfl
@[simp] theorem withFetchWord_initHint (s : State) (nbits w : Nat) : (s.withFetchWord nbits w).initHint = s.initHint := rfl
@[simp] theorem withFetchWord_fWbovf (s : State) (nbits w : Nat) : (s.withFetchWord nbits w).fWbovf = s.fWbovf := rfl
@[simp] theorem withFetchWord_fWbpending (s : State) (nbits w : Nat) : (s.withFetchWord nbits w).fWbpending = s.fWbpending := rfl
@[simp] theorem withFetchWord_wBadcmd (s : State) (nbits w : Nat) : (s.withFetchWord nbits w).wBadcmd = s.wBadcmd := rfl
@[simp] theorem withFetchWord_precise (s : State) (nbits w : Nat) : (s.withFetchWord nbits w).precise = s.precise := rfl
@[simp] theorem withFetchWord_cfgPrecise (s : State) (nbits w : Nat) : (s.withFetchWord nbits w).cfgPrecise = s.cfgPrecise := rfl
@[simp] theorem withFetchWord_inputs (s : State) (nbits w : Nat) : (s.withFetchWord nbits w).inputs = ⟨false, s.cfgPrecise, true, BitVec.ofNat 64 (w % 2 ^ nbits)⟩ :: s.inputs := rfl
@[simp] theorem withFetchWord_rspData (s : State) (nbits w : Nat) : (s.withFetchWord nbits w).rspData = s.rspData := rfl
@[simp] theorem withFetchWord_rspCond (s : State) (nbits w : Nat) : (s.withFetchWord nbits w).rspCond = s.rspCond := rfl
@[simp] theorem withFetchWord_cfg (s : State) (nbits w : Nat) : (s.withFetchWord nbits w).cfg = s.cfg := rfl
@[simp] theorem withFetchWord_resetCount (s : State) (nbits w : Nat) : (s.withFetchWord nbits w).resetCount = s.resetCount := rfl

/-! ### `performReset` -/

@[simp] theorem performReset_ac (s : State) : (performReset s).ac = ⟨resetAcc s 0 s.ac.r0, resetAcc s 3 s.ac.r1⟩ := rfl
@[simp] theorem performReset_prod (s : State) : (performReset s).prod = ⟨drawn s 6 s.prod.h, drawn s 7 s.prod.m, drawn s 8 s.prod.m2, drawn s 9 s.prod.l⟩ := rfl
@[simp] theorem performReset_ar (s : State) : (performReset s).ar = resetBank s 10 s.ar := rfl
@[simp] theorem performReset_ix (s : State) : (performReset s).ix = resetBank s 14 s.ix := rfl
@[simp] theorem performReset_wr (s : State) : (performReset s).wr = resetBank s 18 s.wr := rfl
@[simp] theorem performReset_ax (s : State) : (performReset s).ax = ⟨resetExt s 22 s.ax.r0, resetExt s 24 s.ax.r1⟩ := rfl
@[simp] theorem performReset_sr (s : State) : (performReset s).sr = drawn s 26 s.sr := rfl
@[simp] theorem performReset_cr (s : State) : (performReset s).cr = drawn s 27 s.cr := rfl
@[simp] theorem performReset_st (s : State) : (performReset s).st = ⟨resetStack s 0 s.st.r0, resetStack s 1 s.st.r1, resetStack s 2 s.st.r2, resetStack s 3 s.st.r3⟩ := rfl
@[simp] theorem performReset_pc (s : State) : (performReset s).pc = s.cfg.resetPc := rfl
@[simp] theorem performReset_stepCnt (s : State) : (performReset s).stepCnt = 0 := rfl
@[simp] theorem performReset_wbq (s : State) : (performReset s).wbq = [] := rfl
@[simp] theorem performReset_initHint (s : State) : (performReset s).initHint = false := rfl
@[simp] theorem performReset_fWbovf (s : State) : (performReset s).fWbovf = false := rfl
@[simp] theorem performReset_fWbpending (s : State) : (performReset s).fWbpending = false := rfl
@[simp] theorem performReset_wBadcmd (s : State) : (performReset s).wBadcmd = false := rfl
@[simp] theorem performReset_precise (s : State) : (performReset s).precise = s.cfgPrecise := rfl
@[simp] theorem performReset_cfgPrecise (s : State) : (performReset s).cfgPrecise = s.cfgPrecise := rfl
@[simp] theorem performReset_inputs (s : State) : (performReset s).inputs = s.inputs := rfl
@[simp] theorem performReset_rspData (s : State) : (performReset s).rspData = s.rspData := rfl
@[simp] theorem performReset_rspCond (s : State) : (performReset s).rspCond = s.rspCond := rfl
@[simp] theorem performReset_cfg (s : State) : (performReset s).cfg = s.cfg := rfl
@[simp] theorem performReset_resetCount (s : State) : (performReset s).resetCount = s.resetCount + 1 := rfl

end Machine

end Sys2Proof
end

