-- ==== Sys2Proof/Laws/Ops.lean ====
section
/-! SUPPORT. What each shared operation does, said once: the stacks, the register accessors, the queue, the reset, the
long values. Later proofs cite these and do not unfold the operations. -/

namespace Sys2Proof.Machine

open Sys2Proof.Safety

/-! ### Stacks (rules R27 to R29) -/

@[simp] theorem pushStack_top (d : Nat) (v : Word) (k : Stack) : (pushStack d v k).top = v := rfl
@[simp] theorem pushStack_ptr (d : Nat) (v : Word) (k : Stack) : (pushStack d v k).ptr = (k.ptr + 1) % d := rfl
@[simp] theorem pushStack_mem (d : Nat) (v : Word) (k : Stack) :
    (pushStack d v k).mem = k.mem.set ((k.ptr + 1) % d) k.top := rfl
@[simp] theorem popStack_top (d : Nat) (k : Stack) : (popStack d k).top = k.mem.getD k.ptr 0#16 := rfl
@[simp] theorem popStack_ptr (d : Nat) (k : Stack) : (popStack d k).ptr = (k.ptr + d - 1) % d := rfl
@[simp] theorem popStack_mem (d : Nat) (k : Stack) : (popStack d k).mem = k.mem := rfl

/-- A push keeps the shape of a stack. -/
theorem pushStack_ok {d : Nat} {k : Stack} (v : Word) (h : StackOk d k) : StackOk d (pushStack d v k) :=
  ⟨by simpa using h.1, Nat.mod_lt _ (by have := h.2; omega)⟩

/-- A pop keeps the shape of a stack. -/
theorem popStack_ok {d : Nat} {k : Stack} (h : StackOk d k) : StackOk d (popStack d k) :=
  ⟨h.1, Nat.mod_lt _ (by have := h.2; omega)⟩

/-- The pointer after a pop, as one less modulo the depth. -/
theorem pop_ptr_eq {d p : Nat} (h : p < d) : (p + d - 1) % d = if p = 0 then d - 1 else p - 1 := by
  split_ifs with h0
  · subst h0; rw [Nat.zero_add]; exact Nat.mod_eq_of_lt (by omega)
  · rw [show p + d - 1 = p - 1 + d by omega, Nat.add_mod_right]; exact Nat.mod_eq_of_lt (by omega)

/-- The pointer after a push and a pop. -/
theorem push_pop_ptr {d p : Nat} (h : p < d) : ((p + 1) % d + d - 1) % d = p := by
  have hlt : (p + 1) % d < d := Nat.mod_lt _ (by omega)
  rw [pop_ptr_eq hlt]
  by_cases hp : p + 1 = d
  · simp [hp]; omega
  · rw [Nat.mod_eq_of_lt (by omega)]; simp

/-- The pointer after a pop and a push. -/
theorem pop_push_ptr {d p : Nat} (h : p < d) : ((p + d - 1) % d + 1) % d = p := by
  rw [pop_ptr_eq h]
  split_ifs with h0
  · rw [show d - 1 + 1 = d by omega, Nat.mod_self]; exact h0.symm
  · rw [show p - 1 + 1 = p by omega]; exact Nat.mod_eq_of_lt h

/-- A pop and a push leave the pointer and the backing store as they were: a push after a pop only replaces the top. -/
theorem pushStack_popStack {d : Nat} {k : Stack} (v : Word) (h : StackOk d k) :
    pushStack d v (popStack d k) = { k with top := v } := by
  obtain ⟨hl, hp⟩ := h
  have hm : k.mem.set k.ptr (k.mem.getD k.ptr 0#16) = k.mem := by
    rw [List.getD_eq_getElem _ _ (by omega)]; exact List.set_getElem_self _
  simp only [pushStack, popStack, pop_push_ptr hp, hm]

/-! ### Reading a register (rule R125) -/

/-- Only a stack index has a side effect on reading. -/
theorem afterRead_eq (i : Reg) (s : State) :
    (∃ k, i = .st k ∧ afterRead i s = pop k s) ∨ ((∀ k, i ≠ .st k) ∧ afterRead i s = s) := by
  cases i <;> first
    | exact .inl ⟨_, rfl, rfl⟩
    | exact .inr ⟨fun k h => Reg.noConfusion h, rfl⟩

/-! ### Writing a register (rule R126): what no index reaches -/

@[simp] theorem regWrite_pc (i : Reg) (v : Word) (s : State) : (regWrite i v s).pc = s.pc := by cases i <;> rfl
@[simp] theorem regWrite_stepCnt (i : Reg) (v : Word) (s : State) : (regWrite i v s).stepCnt = s.stepCnt := by
  cases i <;> rfl
@[simp] theorem regWrite_wbq (i : Reg) (v : Word) (s : State) : (regWrite i v s).wbq = s.wbq := by cases i <;> rfl
@[simp] theorem regWrite_initHint (i : Reg) (v : Word) (s : State) : (regWrite i v s).initHint = s.initHint := by
  cases i <;> rfl
@[simp] theorem regWrite_fWbovf (i : Reg) (v : Word) (s : State) : (regWrite i v s).fWbovf = s.fWbovf := by
  cases i <;> rfl
@[simp] theorem regWrite_fWbpending (i : Reg) (v : Word) (s : State) :
    (regWrite i v s).fWbpending = s.fWbpending := by cases i <;> rfl
@[simp] theorem regWrite_wBadcmd (i : Reg) (v : Word) (s : State) : (regWrite i v s).wBadcmd = s.wBadcmd := by
  cases i <;> rfl
@[simp] theorem regWrite_precise (i : Reg) (v : Word) (s : State) : (regWrite i v s).precise = s.precise := by
  cases i <;> rfl
@[simp] theorem regWrite_cfgPrecise (i : Reg) (v : Word) (s : State) :
    (regWrite i v s).cfgPrecise = s.cfgPrecise := by cases i <;> rfl
@[simp] theorem regWrite_inputs (i : Reg) (v : Word) (s : State) : (regWrite i v s).inputs = s.inputs := by
  cases i <;> rfl
@[simp] theorem regWrite_rspData (i : Reg) (v : Word) (s : State) : (regWrite i v s).rspData = s.rspData := by
  cases i <;> rfl
@[simp] theorem regWrite_rspCond (i : Reg) (v : Word) (s : State) : (regWrite i v s).rspCond = s.rspCond := by
  cases i <;> rfl
@[simp] theorem regWrite_cfg (i : Reg) (v : Word) (s : State) : (regWrite i v s).cfg = s.cfg := by cases i <;> rfl
@[simp] theorem regWrite_resetCount (i : Reg) (v : Word) (s : State) :
    (regWrite i v s).resetCount = s.resetCount := by cases i <;> rfl

/-- Only the index `SR` reaches the status register. -/
theorem regWrite_sr {i : Reg} (v : Word) (s : State) (h : i ≠ .sr) : (regWrite i v s).sr = s.sr := by
  cases i <;> first | rfl | exact absurd rfl h

/-- A write does not look at the queue: it commutes with replacing it. -/
theorem regWrite_with_wbq (i : Reg) (v : Word) (s : State) (q : List (Reg × Word)) :
    regWrite i v { s with wbq := q } = { regWrite i v s with wbq := q } := by cases i <;> rfl

/-- A write keeps the shape of the four stacks. -/
theorem regWrite_stacksOk (i : Reg) (v : Word) {s : State} (h : StacksOk s) : StacksOk (regWrite i v s) := by
  cases i with
  | st k =>
    intro j
    show StackOk s.cfg.stackDepth ((s.st.set k _).get j)
    rw [Bank4.get_set]
    split_ifs
    · exact pushStack_ok v (h k)
    · exact h j
  | _ => exact h

/-- A read keeps the shape of the four stacks. -/
theorem afterRead_stacksOk (i : Reg) {s : State} (h : StacksOk s) : StacksOk (afterRead i s) := by
  rcases afterRead_eq i s with ⟨k, _, e⟩ | ⟨_, e⟩ <;> rw [e]
  · intro j
    show StackOk s.cfg.stackDepth ((s.st.set k _).get j)
    rw [Bank4.get_set]
    split_ifs
    · exact popStack_ok (h k)
    · exact h j
  · exact h

/-- A byte sign-extended to a window is a high window (rule R12). -/
theorem signExtend_high (b : BitVec 8) : HighOk (b.signExtend 16) := by
  intro j h8 h16
  rw [BitVec.getLsbD_signExtend, BitVec.getLsbD_signExtend, if_neg (by omega), if_pos (by omega),
    BitVec.msb_eq_getLsbD_last]
  simp [h16]

/-- A stored high window is the sign extension of its low 8 bits (rule R12). -/
theorem sext8_high (v : Word) : HighOk (sext8 v) := signExtend_high _

/-- A write keeps the high windows sign-extended (rule R12). -/
theorem regWrite_highs (i : Reg) (v : Word) {s : State} (h : ∀ a, HighOk (s.ac.get a).h) :
    ∀ a, HighOk ((regWrite i v s).ac.get a).h := by
  cases i with
  | ach b =>
    intro a
    show HighOk ((s.ac.set b _).get a).h
    rw [Bank2.get_set]
    split_ifs
    · exact sext8_high v
    · exact h a
  | acl b | acm b =>
    intro a
    show HighOk ((s.ac.set b _).get a).h
    rw [Bank2.get_set]
    split_ifs with hab
    · subst hab; exact h a
    · exact h a
  | _ => exact h

/-- Reading back what was written: the value itself, or its 8-bit sign extension in a high window. -/
theorem regValue_regWrite (i : Reg) (v : Word) (s : State) :
    regValue i (regWrite i v s) = match i with | .ach _ => sext8 v | _ => v := by
  cases i <;> simp [regValue, regWrite, push]

/-! ### The queue (rules R100 to R105) -/

/-- The append succeeds exactly when the queue does not hold `WB_CAPACITY` entries. -/
theorem queueWrite_of_room {i : Reg} {v : Word} {rsp : Long} {s : State} (h : s.wbq.length ≠ s.cfg.wbCapacity) :
    queueWrite i v rsp s = respond rsp { s with wbq := s.wbq ++ [(i, v)] } := by
  simp [queueWrite, qAppend, h]

/-- The append to a full queue raises `F_WBOVF` and changes nothing else. -/
theorem queueWrite_of_full {i : Reg} {v : Word} {rsp : Long} {s : State} (h : s.wbq.length = s.cfg.wbCapacity) :
    queueWrite i v rsp s = raiseFault .wbovf s := by
  simp [queueWrite, qAppend, h]

@[simp] theorem flushEntries_nil (s : State) : flushEntries [] s = s := rfl
theorem flushEntries_snoc (q : List (Reg × Word)) (e : Reg × Word) (s : State) :
    flushEntries (q ++ [e]) s = flushEntry (flushEntries q s) e := by
  simp [flushEntries]
@[simp] theorem zeroEntries_nil (s : State) : zeroEntries [] s = s := rfl
theorem zeroEntries_snoc (q : List (Reg × Word)) (e : Reg × Word) (s : State) :
    zeroEntries (q ++ [e]) s = regWrite e.1 0#16 (zeroEntries q s) := by
  simp [zeroEntries]
@[simp] theorem zeroEntriesBut_nil (a : Two) (s : State) : zeroEntriesBut a [] s = s := rfl
theorem zeroEntriesBut_snoc (a : Two) (q : List (Reg × Word)) (e : Reg × Word) (s : State) :
    zeroEntriesBut a (q ++ [e]) s =
      if windowOf a e.1 then zeroEntriesBut a q s else regWrite e.1 0#16 (zeroEntriesBut a q s) := by
  simp [zeroEntriesBut]

/-- A predicate that every flushed entry keeps holds after the flush. -/
theorem flushEntries_keeps {P : State → Prop} (hp : ∀ s e, P s → P (flushEntry s e)) :
    ∀ (q : List (Reg × Word)) (s : State), P s → P (flushEntries q s)
  | [], _, h => h
  | e :: q, s, h => flushEntries_keeps hp q (flushEntry s e) (hp s e h)

/-- A predicate that every register write of zero keeps holds after `WBZERO`'s writes. -/
theorem zeroEntries_keeps {P : State → Prop} (hp : ∀ s i, P s → P (regWrite i 0#16 s)) :
    ∀ (q : List (Reg × Word)) (s : State), P s → P (zeroEntries q s)
  | [], _, h => h
  | e :: q, s, h => zeroEntries_keeps hp q (regWrite e.1 0#16 s) (hp s e.1 h)

/-- A predicate that every register write of zero keeps holds after `WBZEROP`'s writes. -/
theorem zeroEntriesBut_keeps {P : State → Prop} (a : Two) (hp : ∀ s i, P s → P (regWrite i 0#16 s)) :
    ∀ (q : List (Reg × Word)) (s : State), P s → P (zeroEntriesBut a q s)
  | [], _, h => h
  | e :: q, s, h => by
    show P (zeroEntriesBut a q (if windowOf a e.1 then s else regWrite e.1 0#16 s))
    refine zeroEntriesBut_keeps a hp q _ ?_
    split_ifs
    · exact h
    · exact hp s e.1 h

/-- A flushed entry, without `PRECISE`, is a register write (rule R102). -/
theorem flushEntry_plain {s : State} (e : Reg × Word) (h : s.precise = false) :
    flushEntry s e = regWrite e.1 e.2 s := by simp [flushEntry, h]

/-- A flushed entry in precise mode, by the class of its target (rules R102 and R103). -/
theorem flushEntry_precise {s : State} (e : Reg × Word) (h : s.precise = true) :
    (∃ k, e.1 = .st k ∧ flushEntry s e = push k ((s.st.get k).top ||| e.2) (pop k s)) ∨
    ((∀ k, e.1 ≠ .st k) ∧ flushEntry s e = regWrite e.1 (regValue e.1 s ||| e.2) s) := by
  simp only [flushEntry, h, if_true]
  rcases afterRead_eq e.1 s with ⟨k, hk, he⟩ | ⟨hn, he⟩
  · exact .inl ⟨k, hk, by rw [he, hk]; rfl⟩
  · exact .inr ⟨hn, by rw [he]⟩

/-! ### The ends of the address-unit and multiplier commands -/

theorem finishAddr_direct (n : Four) (v : Word) (s : State) :
    finishAddr n false v s = respond (v.zeroExtend 40) { s with ar := s.ar.set n v } := rfl
theorem finishAddr_queued (n : Four) (v : Word) (s : State) :
    finishAddr n true v s = queueWrite (.ar n) v (v.zeroExtend 40) s := rfl
theorem finishMul_eq (res : Long) (w : Bool) (s : State) :
    finishMul res w s = respond res { s with prod := if w then productOfLong res else s.prod } := by
  cases w <;> rfl

/-! ### Long values -/

/-- `wrap40` as an integer: the representative of its class in the 40-bit signed range (rule R157). -/
theorem wrap40_toInt (n : Int) : (wrap40 n).toInt = n.bmod (2 ^ 40) := by simp [wrap40, BitVec.toInt_ofInt]

/-- A stack after reset has its shape: `STACK_DEPTH` entries, pointer 0. -/
theorem resetStack_ok (s : State) (k : Nat) (x : Stack) (h : 1 ≤ s.cfg.stackDepth) :
    StackOk s.cfg.stackDepth (resetStack s k x) :=
  ⟨by simp [resetStack], h⟩

end Sys2Proof.Machine
end

