-- ==== Sys2Proof/Laws/PerInstr.lean ====
section
/-! SUPPORT. Made for every command, one lemma a constructor: the word `encode` gives lies in the command's own row of
`spec/opcode_table.json` (its `match` under its `mask`, and the row's constraint). -/

namespace Sys2Proof.Laws

/-- The bitwise `and` of two words, field by field. -/
theorem wordOf_and (a b : Fields) :
    wordOf a &&& wordOf b = wordOf ⟨a.op &&& b.op, a.q && b.q, a.r &&& b.r, a.f &&& b.f, a.z &&& b.z, a.d &&& b.d⟩ := by
  apply BitVec.eq_of_getLsbD_eq
  intro j _
  rw [BitVec.getLsbD_and]
  simp only [wordOf_getLsbD, BitVec.getLsbD_and]
  split_ifs <;> rfl

/-- A row's `mask` covers the operation code, `z`, and every bit its format does not use (rules R51 and R58). -/
theorem tableRow_mask (o : Opcode) :
    (tableRow o).2 =
      wordOf ⟨0x3F#6, !(formatOf o).q, ~~~(formatOf o).r, ~~~(formatOf o).f, 0xFF#8, ~~~(formatOf o).d⟩ := by
  cases o <;> rfl

/-- A row's `match` is its operation code with every other bit 0 (rule R58). -/
theorem tableRow_match (o : Opcode) : (tableRow o).1 = wordOf ⟨codeOf o, false, 0#5, 0#4, 0#8, 0#40⟩ := by
  cases o <;> rfl

/-- The bits of a 16-bit value lie in `d[15:0]` (rule R57). -/
theorem dataField_upper (v : Word) : dataField v &&& ~~~0xFFFF#40 = 0#40 := by
  rw [dataField, show ~~~0xFFFF#40 = 0xFFFFFF#24 ++ 0#16 from rfl, BitVec.and_append, BitVec.and_zero,
    BitVec.zero_and]
  rfl

/-- The bits of two multiplier operands lie in `d[31:0]` (rule R57). -/
theorem operands_upper (a b : Word) : 0#8 ++ b ++ a &&& ~~~0xFFFFFFFF#40 = 0#40 := by
  rw [show ~~~0xFFFFFFFF#40 = 0xFF#8 ++ 0#16 ++ 0#16 from rfl, BitVec.and_append, BitVec.and_append, BitVec.and_zero,
    BitVec.and_zero, BitVec.zero_and]
  rfl

namespace EncodeInTableRow

/-- The command's word matches its row of the opcode table and meets the row's constraint. -/
def Statement (i : Instr) : Prop :=
  encode i &&& (tableRow (opOf i)).2 = (tableRow (opOf i)).1 ∧ rowConstraint (opOf i) (encode i) = true

/-- A word lies in a row when its operation code is the row's, `z` is 0 and no field bit outside the format is set. -/
theorem of_fields {i : Instr} (hop : (encodeFields i).op = codeOf (opOf i)) (hz : (encodeFields i).z = 0#8)
    (hq : ((encodeFields i).q && !(formatOf (opOf i)).q) = false)
    (hr : (encodeFields i).r &&& ~~~(formatOf (opOf i)).r = 0#5)
    (hf : (encodeFields i).f &&& ~~~(formatOf (opOf i)).f = 0#4)
    (hd : (encodeFields i).d &&& ~~~(formatOf (opOf i)).d = 0#40)
    (hc : rowConstraint (opOf i) (encode i) = true) : Statement i := by
  refine ⟨?_, hc⟩
  rw [tableRow_mask, tableRow_match, encode, wordOf_and, hop, hz, hq, hr, hf, hd]
  congr 2
  · exact BitVec.and_allOnes
  · exact BitVec.zero_and

/-- The mode bits of a multiplier word are the mode's number, which is not 3 (rule R90). -/
theorem mode_ne_three (o : Opcode) (m : MulMode) (w : Bool) (a b : Word) :
    decide ((wordOf (mulFields o m w a b)).extractLsb' 52 2 ≠ 3#2) = true := by
  have h : (wordOf (mulFields o m w a b)).extractLsb' 52 2 = (fieldsOf (wordOf (mulFields o m w a b))).r.extractLsb' 0 2 := by
    apply BitVec.eq_of_getLsbD_eq
    intro j hj
    simp only [fieldsOf, BitVec.getLsbD_extractLsb']
    simp [hj, show j < 5 by omega]
  rw [h, fieldsOf_wordOf]
  cases m <;> rfl

theorem nop : Statement .nop := by
  refine of_fields rfl rfl ?_ ?_ ?_ ?_ ?_ <;> simp [rowConstraint, encodeFields, opOf, formatOf, plainFields]
theorem arinc (n : Four) (q : Bool) : Statement (.arinc n q) := by
  cases n <;> cases q <;> refine of_fields rfl rfl ?_ ?_ ?_ ?_ ?_ <;> simp [rowConstraint, encodeFields, opOf, formatOf, arFields, bitsOfFour]
theorem ardec (n : Four) (q : Bool) : Statement (.ardec n q) := by
  cases n <;> cases q <;> refine of_fields rfl rfl ?_ ?_ ?_ ?_ ?_ <;> simp [rowConstraint, encodeFields, opOf, formatOf, arFields, bitsOfFour]
theorem araddix (n : Four) (q : Bool) : Statement (.araddix n q) := by
  cases n <;> cases q <;> refine of_fields rfl rfl ?_ ?_ ?_ ?_ ?_ <;> simp [rowConstraint, encodeFields, opOf, formatOf, arFields, bitsOfFour]
theorem arsubix (n : Four) (q : Bool) : Statement (.arsubix n q) := by
  cases n <;> cases q <;> refine of_fields rfl rfl ?_ ?_ ?_ ?_ ?_ <;> simp [rowConstraint, encodeFields, opOf, formatOf, arFields, bitsOfFour]
theorem accget (a : Two) : Statement (.accget a) := by
  cases a <;> refine of_fields rfl rfl ?_ ?_ ?_ ?_ ?_ <;> simp [rowConstraint, encodeFields, opOf, formatOf, plainFields, accField, bitOfTwo]
theorem accset (a : Two) (v : Long) : Statement (.accset a v) := by
  cases a <;> refine of_fields rfl rfl ?_ ?_ ?_ ?_ ?_ <;> simp [rowConstraint, encodeFields, opOf, formatOf, plainFields, accField, bitOfTwo]
theorem cext (i : Reg) : Statement (.cext i) := by
  refine of_fields rfl rfl ?_ ?_ ?_ ?_ ?_ <;> simp [rowConstraint, encodeFields, opOf, formatOf, plainFields]
theorem prodget : Statement .prodget := by
  refine of_fields rfl rfl ?_ ?_ ?_ ?_ ?_ <;> simp [rowConstraint, encodeFields, opOf, formatOf, plainFields]
theorem prodgetr : Statement .prodgetr := by
  refine of_fields rfl rfl ?_ ?_ ?_ ?_ ?_ <;> simp [rowConstraint, encodeFields, opOf, formatOf, plainFields]
theorem prodset (v : Long) : Statement (.prodset v) := by
  refine of_fields rfl rfl ?_ ?_ ?_ ?_ ?_ <;> simp [rowConstraint, encodeFields, opOf, formatOf, plainFields]
theorem mul (m : MulMode) (w : Bool) (a b : Word) : Statement (.mul m w a b) := by
  refine of_fields rfl rfl ?_ ?_ ?_ (operands_upper a b) (mode_ne_three _ m w a b) <;>
    simp [encodeFields, opOf, formatOf, mulFields]
  cases m <;> rfl
theorem mac (m : MulMode) (w : Bool) (a b : Word) : Statement (.mac m w a b) := by
  refine of_fields rfl rfl ?_ ?_ ?_ (operands_upper a b) (mode_ne_three _ m w a b) <;>
    simp [encodeFields, opOf, formatOf, mulFields]
  cases m <;> rfl
theorem msub (m : MulMode) (w : Bool) (a b : Word) : Statement (.msub m w a b) := by
  refine of_fields rfl rfl ?_ ?_ ?_ (operands_upper a b) (mode_ne_three _ m w a b) <;>
    simp [encodeFields, opOf, formatOf, mulFields]
  cases m <;> rfl
theorem mulx (sa sb w : Bool) : Statement (.mulx sa sb w) := by
  cases sa <;> cases sb <;> cases w <;> refine of_fields rfl rfl ?_ ?_ ?_ ?_ ?_ <;> simp [rowConstraint, encodeFields, opOf, formatOf]
theorem sr16 (x : Word) (c o f : Bool) : Statement (.sr16 x c o f) := by
  cases c <;> cases o <;> cases f <;> refine of_fields rfl rfl ?_ ?_ ?_ (dataField_upper x) ?_ <;> simp [rowConstraint, encodeFields, opOf, formatOf, flagFields]
theorem sr64 (x : Long) (c o : Bool) : Statement (.sr64 x c o) := by
  cases c <;> cases o <;> refine of_fields rfl rfl ?_ ?_ ?_ ?_ ?_ <;> simp [rowConstraint, encodeFields, opOf, formatOf, flagFields]
theorem srlz (b : Bool) : Statement (.srlz b) := by
  cases b <;> refine of_fields rfl rfl ?_ ?_ ?_ ?_ ?_ <;> simp [rowConstraint, encodeFields, opOf, formatOf, flagFields]
theorem cond (cc : Cond) : Statement (.cond cc) := by
  refine of_fields rfl rfl ?_ ?_ ?_ ?_ ?_ <;> simp [rowConstraint, encodeFields, opOf, formatOf, flagFields]
theorem regrd (i : Reg) : Statement (.regrd i) := by
  refine of_fields rfl rfl ?_ ?_ ?_ ?_ ?_ <;> simp [rowConstraint, encodeFields, opOf, formatOf, plainFields]
theorem regrds (a : Two) : Statement (.regrds a) := by
  cases a <;> refine of_fields rfl rfl ?_ ?_ ?_ ?_ ?_ <;> simp [rowConstraint, encodeFields, opOf, formatOf, plainFields, accField, bitOfTwo]
theorem regwr (i : Reg) (v : Word) : Statement (.regwr i v) := by
  refine of_fields rfl rfl ?_ ?_ ?_ (dataField_upper v) ?_ <;> simp [rowConstraint, encodeFields, opOf, formatOf, plainFields]
theorem wbappend (i : Reg) (v : Word) : Statement (.wbappend i v) := by
  refine of_fields rfl rfl ?_ ?_ ?_ (dataField_upper v) ?_ <;> simp [rowConstraint, encodeFields, opOf, formatOf, plainFields]
theorem wbflush : Statement .wbflush := by
  refine of_fields rfl rfl ?_ ?_ ?_ ?_ ?_ <;> simp [rowConstraint, encodeFields, opOf, formatOf, plainFields]
theorem wbzero : Statement .wbzero := by
  refine of_fields rfl rfl ?_ ?_ ?_ ?_ ?_ <;> simp [rowConstraint, encodeFields, opOf, formatOf, plainFields]
theorem wbzerop (a : Two) : Statement (.wbzerop a) := by
  cases a <;> refine of_fields rfl rfl ?_ ?_ ?_ ?_ ?_ <;> simp [rowConstraint, encodeFields, opOf, formatOf, plainFields, accField, bitOfTwo]
theorem step (len : Word) : Statement (.step len) := by
  refine of_fields rfl rfl ?_ ?_ ?_ (dataField_upper len) ?_ <;> simp [rowConstraint, encodeFields, opOf, formatOf, plainFields]
theorem loopend : Statement .loopend := by
  refine of_fields rfl rfl ?_ ?_ ?_ ?_ ?_ <;> simp [rowConstraint, encodeFields, opOf, formatOf, plainFields]
theorem pcrd : Statement .pcrd := by
  refine of_fields rfl rfl ?_ ?_ ?_ ?_ ?_ <;> simp [rowConstraint, encodeFields, opOf, formatOf, plainFields]
theorem pcwr (t : Word) : Statement (.pcwr t) := by
  refine of_fields rfl rfl ?_ ?_ ?_ (dataField_upper t) ?_ <;> simp [rowConstraint, encodeFields, opOf, formatOf, plainFields]
theorem crrd : Statement .crrd := by
  refine of_fields rfl rfl ?_ ?_ ?_ ?_ ?_ <;> simp [rowConstraint, encodeFields, opOf, formatOf, plainFields]
theorem crwr (v : Word) : Statement (.crwr v) := by
  refine of_fields rfl rfl ?_ ?_ ?_ (dataField_upper v) ?_ <;> simp [rowConstraint, encodeFields, opOf, formatOf, plainFields]

end EncodeInTableRow

end Sys2Proof.Laws
end

