-- ==== Sys2Proof/Laws/Port.lean ====
section
/-! SUPPORT. What a reset, a presented word and a clock can do, said once. -/

namespace Sys2Proof.Machine

open Sys2Proof.Safety

/-- A reset leaves the values rule R147 states, whatever it leaves in the registers the rule does not fix. -/
theorem performReset_values (s : State) : ResetValues s (performReset s) where
  pc := rfl
  stepCnt := rfl
  wbq := rfl
  pointers := fun k => by cases k <;> rfl
  stores := fun k => by cases k <;> simp [Bank4.get, resetStack]
  initHint := rfl
  fWbovf := rfl
  fWbpending := rfl
  wBadcmd := rfl
  highs := fun a => by cases a <;> exact sext8_high _
  precise := rfl
  cfg := rfl

/-- A word resets a faulted block exactly when it decodes to a resetting `CRWR`. -/
theorem resettingWord_iff (w : BitVec 64) :
    resettingWord w = true ↔ ∃ v, decode w = .ok (.crwr v) ∧ v.getLsbD 0 = true := by
  unfold resettingWord
  split
  · next v h => simp [h]
  · next h =>
    constructor
    · intro h0; exact absurd h0 (by decide)
    · rintro ⟨v, hv, _⟩; exact absurd hv (h v)

/-- What a presented word can lead to: the gate, the warning, or the command's own rule (rule R138). -/
theorem runWord_cases {w : BitVec 64} {s t : State} (h : runWord w s = .next t) :
    (faulted s = true ∧ resettingWord w = false ∧ t = ignoreCommand s) ∨
    (faulted s = false ∧ (∃ e, decode w = .error e) ∧ t = badCommand s) ∨
    ((faulted s = true → resettingWord w = true) ∧ ∃ i, decode w = .ok i ∧ exec i s = .next t) := by
  unfold runWord at h
  split at h
  · next hg =>
    simp only [Bool.and_eq_true, Bool.not_eq_true'] at hg
    exact .inl ⟨hg.1, hg.2, by injection h with h; exact h.symm⟩
  · next hg =>
    have hg' : faulted s = true → resettingWord w = true := by
      intro hf; by_contra hr; exact hg (by simp [hf, hr])
    split at h
    · next e he =>
      refine .inr (.inl ⟨?_, ⟨e, he⟩, by injection h with h; exact h.symm⟩)
      by_contra hf
      obtain ⟨v, hv, _⟩ := (resettingWord_iff w).1 (hg' (by simpa using hf))
      rw [he] at hv; cases hv
    · next i hi => exact .inr (.inr ⟨hg', i, hi, h⟩)

/-- What a clock can lead to (rules R8, R146, R156). -/
theorem clock_cases {s t : State} (h : clock s = .next t) :
    s.cfg.valid = true ∧
      ((s.inputs = [] ∧ t = s) ∨
        ∃ c rest, s.inputs = c :: rest ∧
          ((c.rst = true ∧ t = performReset (seeClock c rest s)) ∨
            (c.rst = false ∧ c.cmdValid = true ∧ runWord c.cmd (seeClock c rest s) = .next t) ∨
            (c.rst = false ∧ c.cmdValid = false ∧ t = seeClock c rest s))) := by
  unfold clock at h
  split at h
  · next hv =>
    refine ⟨hv, ?_⟩
    split at h
    · next hi => exact .inl ⟨hi, by injection h with h; exact h.symm⟩
    · next c rest hi =>
      refine .inr ⟨c, rest, hi, ?_⟩
      split at h
      · next hr => exact .inl ⟨hr, by injection h with h; exact h.symm⟩
      · next hr =>
        have hr' : c.rst = false := by simpa using hr
        split at h
        · next hc => exact .inr (.inl ⟨hr', hc, h⟩)
        · next hc => exact .inr (.inr ⟨hr', by simpa using hc, by injection h with h; exact h.symm⟩)
  · cases h

end Sys2Proof.Machine
end

