-- ==== Sys2Proof/Tests/Slice0.lean ====
section
/-! SUPPORT. Tests of the model. Every expected value is one the spec prints: in the rule named, or in the section
named of `95_test_vectors.md`. Words are written out from the encoding tables of `30_encoding.md`. The last part shows,
for every statement that has hypotheses, a state and operands that meet them. -/

namespace Sys2Proof.Tests

open Sys2Proof Sys2Proof.Machine Sys2Proof.Safety

/-! ### Ill-formed parameters, each refused by its check (U6) -/

theorem test_recommended_parameters_pass : Config.recommended.valid = true := by decide
theorem test_empty_backing_store_refused : Config.valid { Config.recommended with stackDepth := 0 } = false := by decide
theorem test_empty_queue_refused : Config.valid { Config.recommended with wbCapacity := 0 } = false := by decide
theorem test_halt_bit_zero_refused : Config.valid { Config.recommended with crHaltBit := 0 } = false := by decide
theorem test_halt_bit_sixteen_refused : Config.valid { Config.recommended with crHaltBit := 16 } = false := by decide
theorem test_init_status_bit_zero_refused :
    Config.valid { Config.recommended with crInitStatusBit := 0 } = false := by decide
theorem test_init_status_bit_sixteen_refused :
    Config.valid { Config.recommended with crInitStatusBit := 16 } = false := by decide
theorem test_pctop_bit_zero_refused : Config.valid { Config.recommended with crPctopStatusBit := 0 } = false := by decide
theorem test_pctop_bit_sixteen_refused :
    Config.valid { Config.recommended with crPctopStatusBit := 16 } = false := by decide
theorem test_odd_init_value_refused : Config.valid { Config.recommended with crInitValue := 5#16 } = false := by decide
theorem test_zero_init_value_refused : Config.valid { Config.recommended with crInitValue := 0#16 } = false := by decide
theorem test_invalid_parameters_fault :
    step { State.reset with cfg := { Config.recommended with wbCapacity := 0 } } = .fault .invalidConfig := by rfl

/-! ### Reserved words, refused by name (`95_test_vectors.md` section 9) -/

theorem test_op_01_unassigned : decode 0x0400000000000000#64 = .error .unassignedOp := by decide
theorem test_op_3F_unassigned : decode 0xFC00000000000000#64 = .error .unassignedOp := by decide
theorem test_nop_with_data_reserved : decode 0x0000000000000001#64 = .error .unusedFieldNonzero := by decide
theorem test_nop_with_z_reserved : decode 0x0000010000000000#64 = .error .nonzeroZ := by decide
theorem test_arinc_with_r_5_reserved : decode 0x1050000000000000#64 = .error .unusedFieldNonzero := by decide
theorem test_accget_with_r_2_reserved : decode 0x2020000000000000#64 = .error .unusedFieldNonzero := by decide
theorem test_mul_mode_3_reserved : decode 0x4030000000000000#64 = .error .reservedMulMode := by decide
theorem test_mulx_with_data_reserved : decode 0x4C00000000000001#64 = .error .unusedFieldNonzero := by decide
theorem test_sr16_with_f_8_reserved : decode 0x6008000000000000#64 = .error .unusedFieldNonzero := by decide
theorem test_step_with_d_16_reserved : decode 0xC000000000010000#64 = .error .unusedFieldNonzero := by decide

/-! ### Decoding, every constructor from a word written out (rules R51 and R58) -/

theorem test_decode_address_unit :
    decode 0x1000000000000000#64 = .ok (.arinc .i0 false)
    ∧ decode 0x1610000000000000#64 = .ok (.ardec .i1 true)
    ∧ decode 0x1820000000000000#64 = .ok (.araddix .i2 false)
    ∧ decode 0x1E30000000000000#64 = .ok (.arsubix .i3 true) := by decide

theorem test_decode_accumulator_and_product :
    decode 0x2010000000000000#64 = .ok (.accget .i1)
    ∧ decode 0x2410008000000000#64 = .ok (.accset .i1 0x8000000000#40)
    ∧ decode 0x29F0000000000000#64 = .ok (.cext (.acm .i1))
    ∧ decode 0x2C00000000000000#64 = .ok .prodget
    ∧ decode 0x3000000000000000#64 = .ok .prodgetr
    ∧ decode 0x340000FFFFFFFFFE#64 = .ok (.prodset 0xFFFFFFFFFE#40) := by decide

theorem test_decode_multiplier :
    decode 0x42000000FFFF0001#64 = .ok (.mul .ss true 0x0001#16 0xFFFF#16)
    ∧ decode 0x44100000FFFE0003#64 = .ok (.mac .uu false 0x0003#16 0xFFFE#16)
    ∧ decode 0x4A200000FFFE0003#64 = .ok (.msub .us true 0x0003#16 0xFFFE#16)
    ∧ decode 0x4E20000000000000#64 = .ok (.mulx true false true) := by decide

theorem test_decode_flags_and_conditions :
    decode 0x6004000000000000#64 = .ok (.sr16 0x0000#16 false false true)
    ∧ decode 0x6402000180000000#64 = .ok (.sr64 0x0180000000#40 false true)
    ∧ decode 0x6801000000000000#64 = .ok (.srlz true)
    ∧ decode 0x6C0A000000000000#64 = .ok (.cond .a) := by decide

theorem test_decode_register_access :
    decode 0x81E0000000000000#64 = .ok (.regrd (.acm .i0))
    ∧ decode 0x8410000000000000#64 = .ok (.regrds .i1)
    ∧ decode 0x88D000000000BEEF#64 = .ok (.regwr (.st .i1) 0xBEEF#16) := by decide

theorem test_decode_queue :
    decode 0xA180000000001111#64 = .ok (.wbappend (.axl .i0) 0x1111#16)
    ∧ decode 0xA400000000000000#64 = .ok .wbflush
    ∧ decode 0xA800000000000000#64 = .ok .wbzero
    ∧ decode 0xAC10000000000000#64 = .ok (.wbzerop .i1) := by decide

theorem test_decode_sequencer_and_host :
    decode 0x0000000000000000#64 = .ok .nop
    ∧ decode 0xC000000000000002#64 = .ok (.step 0x0002#16)
    ∧ decode 0xC400000000000000#64 = .ok .loopend
    ∧ decode 0xC800000000000000#64 = .ok .pcrd
    ∧ decode 0xCC00000000008000#64 = .ok (.pcwr 0x8000#16)
    ∧ decode 0xD000000000000000#64 = .ok .crrd
    ∧ decode 0xD400000000000005#64 = .ok (.crwr 0x0005#16) := by decide

/-- The register index map, one index of each class (rule R33). -/
theorem test_register_index_map :
    regOfIndex 0x03#5 = .ar .i3 ∧ regOfIndex 0x05#5 = .ix .i1 ∧ regOfIndex 0x0B#5 = .wr .i3
    ∧ regOfIndex 0x0D#5 = .st .i1 ∧ regOfIndex 0x11#5 = .ach .i1 ∧ regOfIndex 0x12#5 = .cr
    ∧ regOfIndex 0x13#5 = .sr ∧ regOfIndex 0x14#5 = .prodl ∧ regOfIndex 0x15#5 = .prodm
    ∧ regOfIndex 0x16#5 = .prodh ∧ regOfIndex 0x17#5 = .prodm2 ∧ regOfIndex 0x19#5 = .axl .i1
    ∧ regOfIndex 0x1B#5 = .axh .i1 ∧ regOfIndex 0x1D#5 = .acl .i1 ∧ regOfIndex 0x1E#5 = .acm .i0 := by decide

theorem test_table_word_decodes : decodeTableWord 64 0x1000000000000000 = some (.arinc .i0 false) := by decide

/-! ### Effects, one presented word -/

/-- A stack of depth 4 holding zeros. -/
def zeros : Stack := ⟨0#16, [0#16, 0#16, 0#16, 0#16], 0⟩

/-- The start of the tests: after reset, with `SR` and the stacks written 0. -/
def start : State := { State.reset with sr := 0#16, st := ⟨zeros, zeros, zeros, zeros⟩ }

/-- The state one step after the word is presented; `start` if the step stops. -/
def run (w : Nat) (s : State) : State :=
  match step (s.withFetchWord 64 w) with
  | .next t => t
  | _ => start

/-- The address registers of one number set (address, mask, index). -/
def withAddr (a w i : Word) (s : State) : State :=
  { s with ar := s.ar.set .i0 a, wr := s.wr.set .i0 w, ix := s.ix.set .i0 i }

/-- Section 2.1, the wrap. -/
theorem test_arinc_wraps : (run 0x1000000000000000 (withAddr 0x1007#16 7#16 0#16 start)).ar.r0 = 0x1000#16 := by decide
/-- Section 2.1, a mask that is not of the form 2^n - 1. -/
theorem test_arinc_odd_mask : (run 0x1000000000000000 (withAddr 0x1007#16 6#16 0#16 start)).ar.r0 = 0x1001#16 := by
  decide
theorem test_ardec_wraps : (run 0x1400000000000000 (withAddr 0x1000#16 7#16 0#16 start)).ar.r0 = 0x1007#16 := by decide
/-- Section 2.3 row 4: the queued form leaves the register. -/
theorem test_ardec_queued :
    (run 0x1600000000000000 (withAddr 0x1007#16 7#16 0#16 start)).wbq = [(.ar .i0, 0x1006#16)]
    ∧ (run 0x1600000000000000 (withAddr 0x1007#16 7#16 0#16 start)).ar.r0 = 0x1007#16 := by decide
/-- Section 2.2, rows 5 and 7. -/
theorem test_araddix_asymmetry :
    (run 0x1800000000000000 (withAddr 0x1000#16 7#16 0xFFF8#16 start)).ar.r0 = 0x1000#16
    ∧ (run 0x1800000000000000 (withAddr 0x1000#16 7#16 0x0008#16 start)).ar.r0 = 0x1008#16 := by decide
/-- Section 2.2, rows 18 and 22. -/
theorem test_arsubix_corners :
    (run 0x1C00000000000000 (withAddr 0x1003#16 0x7FFF#16 0x8000#16 start)).ar.r0 = 0x9003#16
    ∧ (run 0x1C00000000000000 (withAddr 0x1000#16 5#16 0#16 start)).ar.r0 = 0x1006#16 := by decide

/-- Rule R75's example. -/
theorem test_accget_sign :
    (run 0x2010000000000000 { start with ac := start.ac.set .i1 ⟨0xFF80#16, 0#16, 0#16⟩ }).rspData = 0x8000000000#40 := by
  decide
/-- Section 3.1. -/
theorem test_accset_extends : (run 0x2410008000000000 start).ac.r1 = ⟨0xFF80#16, 0#16, 0#16⟩ := by decide
/-- Section 3.5, rows 1 and 4. -/
theorem test_cext :
    (run 0x29E0000000000000 { start with
      sr := 0x4000#16, ac := start.ac.set .i0 ⟨0x12#16, 0x8000#16, 0x789A#16⟩ }).ac.r0 = ⟨0xFFFF#16, 0x8000#16, 0#16⟩
    ∧ (run 0x29C0000000000000 { start with
      sr := 0x4000#16, ac := start.ac.set .i0 ⟨0x12#16, 0x8000#16, 0x789A#16⟩ }).ac.r0 =
        ⟨0x12#16, 0x8000#16, 0x789A#16⟩ := by decide
/-- Section 3.3, row 11: `m2` enters the sum with its carry. -/
theorem test_prodget_sums :
    (run 0x2C00000000000000 { start with prod := ⟨0x80#16, 0x8000#16, 0x8000#16, 0x1234#16⟩ }).rspData =
      0x8100001234#40 := by decide
/-- Section 3.3, row 15, and row 13: the tie, and the wrap. -/
theorem test_prodgetr_rounds :
    (run 0x3000000000000000 { start with prod := ⟨0x7F#16, 0xFFFE#16, 0#16, 0x8000#16⟩ }).rspData = 0x7FFFFE0000#40
    ∧ (run 0x3000000000000000 { start with prod := ⟨0x7F#16, 0xFFFF#16, 0#16, 0xFFFF#16⟩ }).rspData =
      0x8000000000#40 := by decide
/-- Section 3.4. -/
theorem test_prodset_splits :
    (run 0x340000FFFFFFFFFE start).prod = ⟨0x00FF#16, 0xFFFF#16, 0#16, 0xFFFE#16⟩ := by decide

/-- Section 4.1: the operand order of mode US, and rule R85's example. -/
theorem test_mul_mixed :
    (run 0x402000008000FFFF { start with sr := 0x8000#16 }).rspData = 0xFF00010000#40
    ∧ (run 0x42000000FFFF0001 start).prod = ⟨0x00FF#16, 0xFFFF#16, 0#16, 0xFFFE#16⟩ := by decide
/-- Section 4.2, row 1: the wrap at the top of the range. -/
theorem test_mac_wraps :
    (run 0x4600000000010001 { start with prod := ⟨0x7F#16, 0xFFFF#16, 0#16, 0xFFFF#16⟩ }).prod =
      ⟨0x80#16, 0#16, 0#16, 1#16⟩ := by decide
/-- Section 4.2, row 5. -/
theorem test_msub :
    (run 0x4A000000FFFE0003 { start with prod := ⟨0#16, 0#16, 0#16, 0x64#16⟩ }).rspData = 0x70#40 := by decide
/-- Section 4.3, rows 2 and 3: which half is the unsigned operand. -/
theorem test_mulx_mixed :
    (run 0x4C10000000000000 { start with
      sr := 0x8000#16, ax := ⟨⟨0xFFFE#16, 0xFFFF#16⟩, ⟨3#16, 0x8000#16⟩⟩ }).rspData = 0x000005FFFA#40
    ∧ (run 0x4C20000000000000 { start with
      sr := 0x8000#16, ax := ⟨⟨0xFFFE#16, 0xFFFF#16⟩, ⟨3#16, 0x8000#16⟩⟩ }).rspData = 0xFFFFFE0000#40 := by decide

/-- Section 5.2, last row: every comparison flag cleared or set, the rest kept. -/
theorem test_sr16_keeps_the_rest : (run 0x6004000000000000 { start with sr := 0xFFFF#16 }).sr = 0xFFF4#16 := by decide
/-- Section 5.1, rows 8 and 15. -/
theorem test_sr64_flags :
    (run 0x640000FF7FFFFFFF start).sr = 0x0018#16
    ∧ (run 0x6402000000000000 { start with sr := 0x0040#16 }).sr = 0x00E6#16 := by decide
/-- Section 5.3. -/
theorem test_srlz_clears : (run 0x6800000000000000 { start with sr := 0xFFFF#16 }).sr = 0xFFBF#16 := by decide
/-- Section 5.4, rows 0x000A and 0x0024: overflow and sign together are not less; zero is not condition A. -/
theorem test_cond :
    (run 0x6C01000000000000 { start with sr := 0x000A#16 }).rspCond = false
    ∧ (run 0x6C00000000000000 { start with sr := 0x000A#16 }).rspCond = true
    ∧ (run 0x6C0A000000000000 { start with sr := 0x0024#16 }).rspCond = false := by decide

/-- Section 7.1: a pop, and the stored bits of a high window. -/
theorem test_regrd_pops :
    (run 0x80D0000000000000 { start with st := start.st.set .i1 ⟨0xBEEF#16, [0#16, 0x77#16, 0#16, 0#16], 1⟩ }).st.r1 =
      ⟨0x77#16, [0#16, 0x77#16, 0#16, 0#16], 0⟩ := by decide
/-- Section 7.2, rows 5 and 11. -/
theorem test_regrds_saturates :
    (run 0x8410000000000000 { start with
      sr := 0x4000#16, ac := start.ac.set .i1 ⟨0xFFFF#16, 0x7FFF#16, 0xFFFF#16⟩ }).rspData = 0x8000#40
    ∧ (run 0x8410000000000000 { start with
      ac := start.ac.set .i1 ⟨0xFFFF#16, 0x7FFF#16, 0xFFFF#16⟩ }).rspData = 0x7FFF#40 := by decide
/-- Section 7.1: a push, and the sign extension of a high window. -/
theorem test_regwr :
    (run 0x88D000000000BEEF start).st.r1 = ⟨0xBEEF#16, [0#16, 0#16, 0#16, 0#16], 1⟩
    ∧ (run 0x890000000000BEEF start).ac.r0.h = 0xFFEF#16 := by decide

/-- Rule R101's example. -/
theorem test_wbappend_defers :
    (run 0xA180000000001111 start).wbq = [(.axl .i0, 0x1111#16)] ∧ (run 0xA180000000001111 start).ax = start.ax := by
  decide
/-- Section 6, accumulator high window: precise mode, then not. -/
theorem test_wbflush_high_window :
    (run 0xA400000000000000 { start with
      precise := true, ac := start.ac.set .i0 ⟨1#16, 0#16, 0#16⟩, wbq := [(.ach .i0, 0x80#16)] }).ac.r0.h = 0xFF81#16
    ∧ (run 0xA400000000000000 { start with
      ac := start.ac.set .i0 ⟨1#16, 0#16, 0#16⟩, wbq := [(.ach .i0, 0x80#16)] }).ac.r0.h = 0xFF80#16 := by decide
/-- Section 6, `PRECISE = 0`: the later of two entries wins. -/
theorem test_wbflush_order :
    (run 0xA400000000000000 { start with wbq := [(.axl .i0, 0xF0#16), (.axl .i0, 0x0F#16)] }).ax.r0.l = 0x0F#16 := by
  decide
/-- Section 6, `WBZERO` with a stack target. -/
theorem test_wbzero_pushes :
    (run 0xA800000000000000 { start with wbq := [(.st .i0, 0xF0#16)] }).st.r0.ptr = 1
    ∧ (run 0xA800000000000000 { start with wbq := [(.st .i0, 0xF0#16)] }).wbq = [(.st .i0, 0xF0#16)] := by decide
/-- Rule R105's example. -/
theorem test_wbzerop_spares :
    (run 0xAC00000000000000 { start with
      ac := start.ac.set .i0 ⟨0#16, 0x0F0F#16, 0#16⟩, wbq := [(.acm .i0, 0xF0#16)] }).ac.r0.m = 0x0F0F#16
    ∧ (run 0xAC10000000000000 { start with
      ac := start.ac.set .i0 ⟨0#16, 0x0F0F#16, 0#16⟩, wbq := [(.acm .i0, 0xF0#16)] }).ac.r0.m = 0#16 := by decide

/-- Rule R111, and the placing of the word: the input list is empty again. -/
theorem test_nop : run 0 start = start := by decide
/-- Section 8: the wrap of the program counter. -/
theorem test_step_wraps :
    (run 0xC000000000000002 { start with pc := 0xFFFF#16 }).pc = 1#16
    ∧ (run 0xC000000000000002 { start with pc := 0xFFFF#16 }).stepCnt = 1 := by decide

/-- A loop at its end: start 0x0010, end 0x0011, the counter given. -/
def inLoop (count pc : Word) : State :=
  { start with
    pc := pc
    st := ⟨⟨0x10#16, [0#16, 0#16, 0#16, 0#16], 1⟩, zeros, ⟨0x11#16, [0#16, 0#16, 0#16, 0#16], 1⟩,
      ⟨count, [0#16, 0#16, 0#16, 0#16], 1⟩⟩ }

/-- Section 8: the body repeats. -/
theorem test_loopend_repeats :
    (run 0xC400000000000000 (inLoop 3#16 0x12#16)).pc = 0x10#16
    ∧ (run 0xC400000000000000 (inLoop 3#16 0x12#16)).st.r3.top = 2#16 := by decide
/-- Section 8: the finished loop pops three stacks. -/
theorem test_loopend_pops :
    (run 0xC400000000000000 (inLoop 1#16 0x12#16)).st = ⟨zeros, zeros, zeros, zeros⟩
    ∧ (run 0xC400000000000000 (inLoop 1#16 0x12#16)).pc = 0x12#16 := by decide
theorem test_pcrd : (run 0xC800000000000000 { start with pc := 0x11#16 }).rspData = 0x11#40 := by decide
theorem test_pcwr : (run 0xCC0000000000FFFF start).pc = 0xFFFF#16 := by decide
/-- Section 8: the bit is stored as well as answered. -/
theorem test_crrd :
    (run 0xD000000000000000 { start with cr := 4#16, pc := 0x8123#16 }).rspData = 0x804#40
    ∧ (run 0xD000000000000000 { start with cr := 0x804#16, pc := 0x123#16 }).cr = 4#16 := by decide
/-- Section 8: the init value, whose write also halts. -/
theorem test_crwr_init :
    (run 0xD400000000000004 { start with cr := 0#16 }).cr = 0x804#16
    ∧ (run 0xD400000000000004 start).initHint = true ∧ haltOut (run 0xD400000000000004 start) = true := by decide
/-- Section 8 and program P6 row 9: reset, then the store; the queue is discarded. -/
theorem test_crwr_resets :
    (run 0xD400000000000005 { start with wbq := [(.cr, 1#16)], fWbovf := true }).cr = 4#16
    ∧ (run 0xD400000000000005 { start with wbq := [(.cr, 1#16)], fWbovf := true }).wbq = []
    ∧ (run 0xD400000000000005 { start with wbq := [(.cr, 1#16)], fWbovf := true }).fWbovf = false := by decide

/-! ### Faults and the warning (program P6, section 9) -/

/-- A queue of `n` entries. -/
def queued (n : Nat) : State := { start with wbq := List.replicate n (.ar .i1, 2#16) }

theorem test_append_to_full_queue :
    run 0xA010000000000003 (queued 4) = { queued 4 with fWbovf := true } := by decide
theorem test_queued_increment_on_full_queue :
    run 0x1200000000000000 (queued 4) = { queued 4 with fWbovf := true } := by decide
theorem test_step_with_pending_queue :
    run 0xC000000000000001 (queued 1) = { queued 1 with fWbpending := true } := by decide
theorem test_faulted_block_ignores :
    run 0xA400000000000000 { queued 4 with fWbovf := true } = { queued 4 with fWbovf := true }
    ∧ run 0xD400000000000004 { queued 4 with fWbovf := true } = { queued 4 with fWbovf := true } := by decide
theorem test_reserved_word_warns :
    run 0xFC00000000000000 start = { start with wBadcmd := true } := by decide
theorem test_faulted_block_does_not_warn :
    run 0xFC00000000000000 { queued 4 with fWbovf := true } = { queued 4 with fWbovf := true } := by decide

/-! ### Witnesses: states and operands that meet the hypotheses of each statement -/

/-- An input clock. -/
def clk (rst valid : Bool) (w : BitVec 64) : InputClock := ⟨rst, true, valid, w⟩

/-- A state in which every well-shaped-state hypothesis holds and every field is in use. -/
def busy : State :=
  { start with
    wbq := [(.st .i0, 0xF0#16), (.ar .i1, 2#16)], precise := true, wBadcmd := true, initHint := true, stepCnt := 7,
    inputs := [clk false true 0xA400000000000000#64] }

theorem witness_DecoderRefusesExactlyReservedWords : ReservedWord 0x4030000000000000#64 := by
  intro o; cases o <;> decide

theorem witness_EncodeOfDecodeIsTheWord : decode 0xD400000000000005#64 = .ok (.crwr 5#16) := by decide

theorem witness_StepRunsThePresentedCommand_unfaulted :
    busy.cfg.valid = true ∧ busy.inputs = clk false true 0xA400000000000000#64 :: [] ∧
    (clk false true 0xA400000000000000#64).rst = false ∧ (clk false true 0xA400000000000000#64).cmdValid = true ∧
    decode 0xA400000000000000#64 = .ok .wbflush ∧ faulted busy = false := by decide

theorem witness_StepRunsThePresentedCommand_reset :
    decode 0xD400000000000001#64 = .ok (.crwr 1#16) ∧ resets (.crwr 1#16) = true ∧
    faulted { busy with fWbpending := true, inputs := [clk false true 0xD400000000000001#64] } = true := by decide

theorem witness_ReservedWordOnlySetsTheWarning :
    start.cfg.valid = true ∧ faulted start = false ∧ ReservedWord 0x0000000000000001#64 := by
  refine ⟨by decide, by decide, ?_⟩; intro o; cases o <;> decide

/-- For a decodable word and for a reserved one, with each fault bit. -/
theorem witness_FaultedBlockIgnoresCommands :
    { queued 4 with fWbovf := true }.cfg.valid = true ∧ { queued 4 with fWbovf := true }.fWbovf = true ∧
    { queued 1 with fWbpending := true }.fWbpending = true ∧
    (∀ v, decode 0xD400000000000004#64 = .ok (.crwr v) → v.getLsbD 0 = false) ∧
    (∀ v, decode 0xFC00000000000000#64 = .ok (.crwr v) → v.getLsbD 0 = false) := by
  refine ⟨by decide, rfl, rfl, ?_, ?_⟩
  · intro v h
    have h' : decode 0xD400000000000004#64 = .ok (.crwr 4#16) := by decide
    rw [h'] at h; cases h; decide
  · intro v h
    have h' : decode 0xFC00000000000000#64 = .error .unassignedOp := by decide
    rw [h'] at h; cases h

theorem witness_ClockWithoutCommandChangesNothing :
    start.cfg.valid = true ∧ start.inputs = [] ∧
    { start with inputs := [clk false false 0#64] }.inputs = clk false false 0#64 :: [] := by decide

theorem witness_ResetInputGivesTheResetValues :
    { busy with inputs := [clk true true 0#64] }.cfg.valid = true ∧
    { busy with inputs := [clk true true 0#64] }.inputs = clk true true 0#64 :: [] ∧
    (clk true true 0#64).rst = true := by decide

/-- The low 8 bits sign-extended, the shape of every high window. -/
theorem highOk_of_eq {h : Word} (e : h = 0xFFA5#16) : HighOk h := by
  subst e; intro j h1 h2; interval_cases j <;> rfl

theorem witness_EveryStepKeepsTheInvariant : Safety.Inv busy ∧ ∃ t, step busy = .next t :=
  ⟨{ config := by decide
     highs := by intro a; cases a <;> exact highOk_of_eq rfl
     stackShape := by intro k; cases k <;> decide
     queueBound := by decide
     overflowFull := by decide
     pendingKept := by decide
     oneFault := by decide }, _, rfl⟩

/-- A faulted state that meets the invariant: the queue full, one fault bit set. -/
theorem witness_EveryStepKeepsTheInvariant_faulted :
    Safety.Inv { queued 4 with fWbovf := true } ∧ ∃ t, step { queued 4 with fWbovf := true } = .next t :=
  ⟨{ config := by decide
     highs := by intro a; cases a <;> exact highOk_of_eq rfl
     stackShape := by intro k; cases k <;> decide
     queueBound := by decide
     overflowFull := by decide
     pendingKept := by decide
     oneFault := by decide }, _, rfl⟩

/-- All four bits set, and a clock that does not reset. -/
theorem witness_StickyBitsClearOnlyByReset :
    (∃ t, step { busy with fWbovf := true, fWbpending := true } = .next t) ∧
    ¬ ResetClock { busy with fWbovf := true, fWbpending := true } := by
  refine ⟨⟨_, rfl⟩, ?_⟩
  rintro ⟨c, rest, h, hr⟩
  cases h
  rcases hr with hr | ⟨_, v, hv, _⟩
  · cases hr
  · have h' : decode 0xA400000000000000#64 = .ok .wbflush := by decide
    exact absurd (hv.symm.trans h') (by simp)

theorem witness_OnlyStepAndResetWriteTheStepCounter :
    (∃ t, exec .loopend busy = .next t) ∧ (∀ len, Instr.loopend ≠ .step len) ∧ resets .loopend = false :=
  ⟨⟨_, rfl⟩, by simp, rfl⟩

theorem witness_OnlyFourCommandsWriteThePc :
    (∃ t, exec .crrd busy = .next t) ∧ (∀ len, Instr.crrd ≠ .step len) ∧ (∀ a, Instr.crrd ≠ .pcwr a) ∧
    Instr.crrd ≠ .loopend ∧ resets .crrd = false :=
  ⟨⟨_, rfl⟩, by simp, by simp, by simp, rfl⟩

/-- A flush whose entries do not name `SR`. -/
theorem witness_OnlyFlagCommandsAndIndexedWritesChangeSr :
    (∃ t, exec .wbflush busy = .next t) ∧ flagCommand .wbflush = false ∧ (∀ v, Instr.wbflush ≠ .regwr .sr v) ∧
    resets .wbflush = false ∧ writesTargets .wbflush = true ∧ ∀ e ∈ busy.wbq, e.1 ≠ .sr :=
  ⟨⟨_, rfl⟩, rfl, by simp, rfl, rfl, by decide⟩

theorem witness_EntriesLeaveOnlyByFlushOrReset :
    (∃ t, exec (.wbappend .sr 1#16) busy = .next t) ∧ Instr.wbappend .sr 1#16 ≠ .wbflush ∧
    resets (.wbappend .sr 1#16) = false :=
  ⟨⟨_, rfl⟩, by simp, rfl⟩

/-- Room in the queue at its last place, and a full queue: `ARINC`, `ARDEC`, `ARADDIX`, `ARSUBIX` and `WBAPPEND`. -/
theorem witness_ArincWritesOrQueuesTheIncrement :
    (queued 3).wbq.length ≠ (queued 3).cfg.wbCapacity ∧ (queued 4).wbq.length = (queued 4).cfg.wbCapacity := by decide
theorem witness_ArdecWritesOrQueuesTheDecrement :
    start.wbq.length ≠ start.cfg.wbCapacity ∧ (queued 4).wbq.length = (queued 4).cfg.wbCapacity := by decide
theorem witness_AraddixWritesOrQueuesTheSum :
    (queued 3).wbq.length ≠ (queued 3).cfg.wbCapacity ∧ (queued 4).wbq.length = (queued 4).cfg.wbCapacity := by decide
theorem witness_ArsubixWritesOrQueuesTheDifference :
    start.wbq.length ≠ start.cfg.wbCapacity ∧ (queued 4).wbq.length = (queued 4).cfg.wbCapacity := by decide
theorem witness_WbappendQueuesOrFaults :
    (queued 3).wbq.length ≠ (queued 3).cfg.wbCapacity ∧ (queued 4).wbq.length = (queued 4).cfg.wbCapacity := by decide

/-- The smallest and the largest ring mask. -/
theorem witness_IncrementAndDecrementStayInTheRing :
    (withAddr 0x1001#16 1#16 0#16 start).wr.get .i0 = ringMask 1 ∧
    (withAddr 0xFFFF#16 0xFFFF#16 0#16 start).wr.get .i0 = ringMask 16 := by decide
theorem witness_IncrementAndDecrementAreInverse :
    (withAddr 0x1001#16 1#16 0#16 start).wr.get .i0 = ringMask 1 ∧
    (withAddr 0xFFFF#16 0xFFFF#16 0#16 start).wr.get .i0 = ringMask 16 := by decide

/-- Both ends of the delta's range, the case the last clause leaves out, and one at an end that it takes in. -/
theorem witness_IndexedUpdatesAreCircular :
    ((withAddr 0x1000#16 7#16 0xFFF8#16 start).wr.get .i0 = ringMask 3 ∧
      ((withAddr 0x1000#16 7#16 0xFFF8#16 start).ix.get .i0).toInt = -2 ^ 3) ∧
    ((withAddr 0x1000#16 7#16 7#16 start).ix.get .i0).toInt = 2 ^ 3 - 1 ∧
    ((withAddr 0x1003#16 0x7FFF#16 0x8000#16 start).wr.get .i0 = ringMask 15 ∧
      ((withAddr 0x1003#16 0x7FFF#16 0x8000#16 start).ix.get .i0).toInt = -32768) ∧
    ((withAddr 0x1003#16 0xFFFF#16 0x8000#16 start).wr.get .i0 = ringMask 16 ∧
      -2 ^ 16 ≤ ((withAddr 0x1003#16 0xFFFF#16 0x8000#16 start).ix.get .i0).toInt) := by decide

theorem witness_CextExtendsTheMidWindow :
    { start with sr := 0x4000#16 }.sr.getLsbD 14 = true ∧ start.sr.getLsbD 14 = false ∧
    ∀ a, Reg.acl .i0 ≠ .acm a := ⟨by decide, by decide, by simp⟩

theorem witness_StickyOverflowSurvivesFlagCommands :
    (∀ i ∈ [Instr.sr16 0#16 false false false, .sr64 0#40 true false, .srlz true, .cond .o], flagCommand i = true) ∧
    { start with sr := 0x0080#16 }.sr.getLsbD 7 = true := by decide

/-- The empty queue, and a queue with a last entry in each mode. -/
theorem witness_WbflushAppliesEntriesInOrder :
    start.wbq = [] ∧ busy.wbq = [(.st .i0, 0xF0#16)] ++ [(.ar .i1, 2#16)] ∧ busy.precise = true ∧
    (queued 1).wbq = [] ++ [(.ar .i1, 2#16)] ∧ (queued 1).precise = false := by decide

theorem witness_PreciseFlushOrsTheStackTopInPlace :
    StacksOk { busy with wbq := [(.st .i0, 0xF0#16)] } ∧
    { busy with wbq := [(.st .i0, 0xF0#16)] }.precise = true ∧
    { busy with wbq := [(.st .i0, 0xF0#16)] }.wbq = [] ++ [(.st .i0, 0xF0#16)] := by
  refine ⟨?_, by decide, by decide⟩; intro k; cases k <;> decide

theorem witness_WbzeroZeroesEveryTarget :
    start.wbq = [] ∧ busy.wbq = [(.st .i0, 0xF0#16)] ++ [(.ar .i1, 2#16)] := by decide

/-- A skipped last entry of each window, and one that is not skipped. -/
theorem witness_WbzeropSparesOneAccumulator :
    start.wbq = [] ∧ { start with wbq := [(.ach .i0, 1#16)] }.wbq = [] ++ [(.ach .i0, 1#16)] ∧
    ¬(Reg.acm .i1 = .acl .i0 ∨ Reg.acm .i1 = .acm .i0 ∨ Reg.acm .i1 = .ach .i0) := by decide

theorem witness_ZeroedTargetTakesTheQueuedValueAlone :
    { start with precise := true, wbq := [(.ach .i0, 0x80#16)] }.precise = true ∧ ∀ k, Reg.ach .i0 ≠ .st k :=
  ⟨rfl, by simp⟩

theorem witness_StepCountsAndAdvancesOrFaults : start.wbq = [] ∧ (queued 1).wbq ≠ [] := by decide

/-- A loop whose last word is at 0xFFFF, its counter 2. -/
def atWrap : State :=
  { inLoop 2#16 0#16 with st := (inLoop 2#16 0#16).st.set .i2 { zeros with top := 0xFFFF#16 } }

/-- An end address 0xFFFF tested with `PC = 0` (rule R118), counters 1 and 2, no active loop, and an end not reached. -/
theorem witness_LoopendRepeatsOrPops :
    ((atWrap.st.get .i2).top ≠ 0#16 ∧ atWrap.pc - 1#16 = (atWrap.st.get .i2).top ∧
      2 ≤ (atWrap.st.get .i3).top.toNat) ∧
    ((inLoop 1#16 0x12#16).pc - 1#16 = ((inLoop 1#16 0x12#16).st.get .i2).top ∧
      ((inLoop 1#16 0x12#16).st.get .i3).top.toNat = 1) ∧
    StacksOk (inLoop 1#16 0x12#16) ∧
    ¬((start.st.get .i2).top ≠ 0#16 ∧ (start.st.get .i3).top ≠ 0#16 ∧ start.pc - 1#16 = (start.st.get .i2).top) ∧
    (inLoop 3#16 0x11#16).pc - 1#16 ≠ ((inLoop 3#16 0x11#16).st.get .i2).top := by
  refine ⟨by decide, by decide, ?_, by decide, by decide⟩; intro k; cases k <;> decide

/-- The status bit at the ends of its range. -/
theorem witness_CrrdReflectsTheTopPcBit :
    { start with cfg := { Config.recommended with crPctopStatusBit := 1 } }.cfg.valid = true ∧
    { start with cfg := { Config.recommended with crPctopStatusBit := 15 } }.cfg.valid = true := by decide

theorem witness_CrwrResetsInitialisesOrStores :
    (0xFFFF#16).getLsbD 0 = true ∧ (0x0004#16).getLsbD 0 = false ∧ 0x0004#16 = start.cfg.crInitValue ∧
    (0x0804#16).getLsbD 0 = false ∧ 0x0804#16 ≠ start.cfg.crInitValue := by decide

theorem witness_HaltFollowsTheControlRegister : start.cfg.valid = true ∧ (0x0004#16).getLsbD 0 = false := by decide

/-- A stack pointer at each end of its range. -/
theorem witness_RegrdAnswersTheRegister :
    (start.st.get .i0).ptr < start.cfg.stackDepth ∧
    ({ start with st := start.st.set .i0 { zeros with ptr := 3 } }.st.get .i0).ptr < start.cfg.stackDepth := by decide
theorem witness_RegwrWritesTheRegister :
    (start.st.get .i0).ptr < start.cfg.stackDepth ∧
    ({ start with st := start.st.set .i0 { zeros with ptr := 3 } }.st.get .i0).ptr < start.cfg.stackDepth := by decide
theorem witness_PopUndoesPush : StackOk start.cfg.stackDepth (start.st.get .i0) := by decide
theorem witness_RegrdsSaturatesTheMidWindow :
    { start with sr := 0x4000#16 }.sr.getLsbD 14 = true ∧ start.sr.getLsbD 14 = false := by decide

end Sys2Proof.Tests
end

section
/-! PROOFS. The product value of the model read over the integers (rules R15 and R78). -/

namespace Sys2Proof.Proofs

open Sys2Proof Sys2Proof.Machine Sys2Proof.Safety

/-! ### Long values over the integers -/

/-- The low byte of a word as a signed number is `s8` (rule R157). -/
theorem lowByte_toInt (v : Word) : (v.extractLsb' 0 8).toInt = s8 v := by
  rw [BitVec.toInt_eq_toNat_bmod, BitVec.extractLsb'_toNat, Nat.shiftRight_zero, Int.natCast_emod]
  exact Int.emod_bmod (v.toNat : Int) (2 ^ 8)

/-- The model reduces the sum of rule R15 by a cast to 40 bits; over the integers that is `prodInt`. -/
theorem product_long_toInt (p : Product) : p.long.toInt = prodInt p := by
  rw [Product.long, wrap40_toInt, lowByte_toInt, prodInt, prodSum]

/-! ### The accessors of the product register -/

theorem exec_prodget (s : State) : exec .prodget s = .next (respond s.prod.long s) := rfl

/-- Settles O28: the answer is the model's product value, which is the sum of the fields by `product_long_toInt`; the
response is the one thing `respond` writes. -/
theorem prodgetAnswersTheSumOfTheFields : Obligations.ProdgetAnswersTheSumOfTheFields := by
  intro s
  have word : encode .prodget = wordOf ⟨0x0B#6, false, 0#5, 0#4, 0#8, 0#40⟩ := rfl
  exact ⟨word, s.prod.long, product_long_toInt s.prod, exec_prodget s⟩

end Sys2Proof.Proofs
end

section
/-! PROOFS. The decoder read forwards (rules R51, R58 and R59): from the fields of a word to its command. -/

namespace Sys2Proof.Proofs

open Sys2Proof

/-! ### The words the decoder accepts -/

/-- The checks of rule R59 in the decoder's order: an assigned code, `z = 0`, and nothing outside the format. -/
theorem decode_wordOf (o : Opcode) (q : Bool) (r : BitVec 5) (f : BitVec 4) (d : BitVec 40)
    (fits : (formatOf o).fits ⟨codeOf o, q, r, f, 0#8, d⟩ = true) :
    decode (wordOf ⟨codeOf o, q, r, f, 0#8, d⟩) = commandOf o ⟨codeOf o, q, r, f, 0#8, d⟩ := by
  simp [decode, fieldsOf_wordOf, opcodeOf_codeOf, fits]

/-- Settles O4: each word is the join of its operation code and its fields q, r, f, d (rule R51), which its format
admits, so `decode_wordOf` names its command. -/
theorem exampleWordsDecode : Obligations.ExampleWordsDecode := by
  refine ⟨?nop, ?arinc, ?accget, ?accset, ?cext, ?mul, ?mulx, ?sr16, ?cond, ?regwr, ?wbappend, ?step, ?crwr⟩
  case nop => exact decode_wordOf .nop false 0#5 0#4 0#40 rfl
  case arinc => exact decode_wordOf .arinc false 0#5 0#4 0#40 rfl
  case accget => exact decode_wordOf .accget false 1#5 0#4 0#40 rfl
  case accset => exact decode_wordOf .accset false 0#5 0#4 0x123456789A#40 rfl
  case cext => exact decode_wordOf .cext false 0x1E#5 0#4 0#40 rfl
  case mul => exact decode_wordOf .mul true 0#5 0#4 0xFFFF0001#40 rfl
  case mulx => exact decode_wordOf .mulx false 1#5 0#4 0#40 rfl
  case sr16 => exact decode_wordOf .sr16 false 0#5 7#4 0x3FFF#40 rfl
  case cond => exact decode_wordOf .cond false 0#5 1#4 0#40 rfl
  case regwr => exact decode_wordOf .regwr false 0x13#5 0#4 0#40 rfl
  case wbappend => exact decode_wordOf .wbappend false 0x18#5 0#4 0x1111#40 rfl
  case step => exact decode_wordOf .step false 0#5 0#4 1#40 rfl
  case crwr => exact decode_wordOf .crwr false 0#5 0#4 4#40 rfl

end Sys2Proof.Proofs
end

section
/-! PROOFS. The four address functions of the model read over the integers (rules R64 to R68), and the three ends of
the commands that compute them (rules R69 to R72). -/

namespace Sys2Proof.Proofs

open Sys2Proof Sys2Proof.Machine Sys2Proof.Safety

/-! ### The low 16 bits of a 32-bit value

The functions compute modulo 2^32 and answer modulo 2^16, which divides 2^32: a candidate that wrapped at 32 bits has
the low 16 bits of the integer it stands for. -/

theorem low16_eq (x : BitVec 32) : x.extractLsb' 0 16 = BitVec.ofInt 16 x.toNat := by
  apply BitVec.eq_of_toNat_eq
  simp

/-- The candidate with the window of `wr + 1` words taken off when the test asks for it. -/
theorem low16_lowered {c c' : Prop} [Decidable c] [Decidable c'] (same : c ↔ c') (x wr : BitVec 32) :
    (if c then x - (wr + 1#32) else x).extractLsb' 0 16 =
      BitVec.ofInt 16 (if c' then (x.toNat : Int) - (wr.toNat + 1) else x.toNat) := by
  by_cases h : c'
  · rw [if_pos h, if_pos (same.mpr h), low16_eq]
    apply BitVec.eq_of_toNat_eq
    simp only [BitVec.toNat_ofInt, BitVec.toNat_sub, BitVec.toNat_add, BitVec.toNat_ofNat]
    omega
  · rw [if_neg h, if_neg (same.not.mpr h), low16_eq]

/-- The candidate with the window of `wr + 1` words added when the test asks for it. -/
theorem low16_raised {c c' : Prop} [Decidable c] [Decidable c'] (same : c ↔ c') (x wr : BitVec 32) :
    (if c then x + wr + 1#32 else x).extractLsb' 0 16 =
      BitVec.ofInt 16 (if c' then (x.toNat : Int) + wr.toNat + 1 else x.toNat) := by
  by_cases h : c'
  · rw [if_pos h, if_pos (same.mpr h), low16_eq]
    apply BitVec.eq_of_toNat_eq
    simp only [BitVec.toNat_ofInt, BitVec.toNat_add, BitVec.toNat_ofNat]
    omega
  · rw [if_neg h, if_neg (same.not.mpr h), low16_eq]

/-! ### The 32-bit operands as numbers (rules R64 and R157) -/

theorem widened_toNat (v : Word) : (v.zeroExtend 32).toNat = v.toNat := by
  simp only [BitVec.toNat_setWidth]
  omega

theorem u32_eq (n : Int) : u32 n = (BitVec.ofInt 32 n).toNat := by
  simp [u32, BitVec.toNat_ofInt]

/-- `ixu` (rule R67). -/
theorem signExtended_toNat (ix : Word) : (ix.signExtend 32).toNat = u32 ix.toInt := by
  rw [u32_eq, BitVec.signExtend]

/-- `~ixu` (rule R68). -/
theorem not_signExtended_toNat (ix : Word) : (~~~ix.signExtend 32).toNat = u32 (-ix.toInt - 1) := by
  rw [BitVec.toNat_not, signExtended_toNat]
  simp only [u32]
  omega

/-- The candidate of rule R67. -/
theorem sum_toNat (ar ix : Word) : (ar.zeroExtend 32 + ix.signExtend 32).toNat = u32 (ar.toNat + ix.toInt) := by
  rw [BitVec.toNat_add, widened_toNat, signExtended_toNat]
  simp only [u32]
  omega

/-- The candidate of rule R68. -/
theorem difference_toNat (ar ix : Word) :
    (ar.zeroExtend 32 - ix.signExtend 32).toNat = u32 (ar.toNat - ix.toInt) := by
  rw [BitVec.toNat_sub, widened_toNat, signExtended_toNat]
  simp only [u32]
  omega

/-- The raised candidate that the tests of rules R67 and R68 look at. -/
theorem raised_toNat (x wr : BitVec 32) : (x + wr + 1#32).toNat = u32 (x.toNat + wr.toNat + 1) := by
  simp only [BitVec.toNat_add, BitVec.toNat_ofNat, u32]
  omega

/-- The mask of the wrap tests does not leave 32 bits. -/
theorem wrapMx_toNat (wr : Word) : (wrapMx (wr.zeroExtend 32)).toNat = (wr.toNat ||| 1) * 2 := by
  have bound : wr.toNat ||| 1 < 2 ^ 16 := Nat.or_lt_two_pow wr.isLt (by decide)
  rw [wrapMx, BitVec.toNat_shiftLeft, BitVec.toNat_or, widened_toNat, Nat.shiftLeft_eq]
  simp only [BitVec.toNat_ofNat, Nat.reducePow, Nat.reduceMod] at bound ⊢
  omega

/-- The test of rule R68 that tells the deltas -32767 to -1 from -32768 and the rest. -/
theorem negative_delta_iff (ix : Word) : 0xFFFF8000#32 < ix.signExtend 32 ↔ -32767 ≤ ix.toInt ∧ ix.toInt ≤ -1 := by
  have low := BitVec.le_toInt ix
  have high := BitVec.toInt_lt (x := ix)
  rw [BitVec.lt_def, signExtended_toNat, u32, BitVec.toNat_ofNat]
  omega

/-! ### The four address functions over the integers -/

theorem incAddr_eq_incInt (ar wr : Word) : incAddr ar wr = BitVec.ofInt 16 (incInt ar.toNat wr.toNat) := by
  have candidate : (ar.zeroExtend 32 + 1#32).toNat = ar.toNat + 1 := by
    rw [BitVec.toNat_add, widened_toNat]
    simp only [BitVec.toNat_ofNat]
    omega
  have same : wrapMx (wr.zeroExtend 32) < (ar.zeroExtend 32 + 1#32) ^^^ ar.zeroExtend 32 ↔
      (ar.toNat + 1 ^^^ ar.toNat) > (wr.toNat ||| 1) * 2 := by
    rw [BitVec.lt_def, BitVec.toNat_xor, wrapMx_toNat, candidate, widened_toNat]
  have low := low16_lowered same (ar.zeroExtend 32 + 1#32) (wr.zeroExtend 32)
  rwa [candidate, widened_toNat] at low

theorem decAddr_eq_decInt (ar wr : Word) : decAddr ar wr = BitVec.ofInt 16 (decInt ar.toNat wr.toNat) := by
  have candidate : (ar.zeroExtend 32 + wr.zeroExtend 32).toNat = ar.toNat + wr.toNat := by
    rw [BitVec.toNat_add, widened_toNat, widened_toNat]
    omega
  have same :
      wr.zeroExtend 32 < ((ar.zeroExtend 32 + wr.zeroExtend 32) ^^^ ar.zeroExtend 32) &&& wrapMx (wr.zeroExtend 32) ↔
      ((ar.toNat + wr.toNat ^^^ ar.toNat) &&& ((wr.toNat ||| 1) * 2)) > wr.toNat := by
    rw [BitVec.lt_def, BitVec.toNat_and, BitVec.toNat_xor, wrapMx_toNat, candidate, widened_toNat, widened_toNat]
  have low := low16_lowered same (ar.zeroExtend 32 + wr.zeroExtend 32) (wr.zeroExtend 32)
  rwa [candidate, widened_toNat] at low

/-- The two ways rules R67 and R68 correct a candidate `x`: where `d` holds its window is taken off when the difference
bits `dar` exceed the mask; elsewhere it is added when that changes none of them above the mask. -/
theorem low16_corrected {d d' : Prop} [Decidable d] [Decidable d'] (branch : d ↔ d') (x dar : BitVec 32) (wr : Word) :
    (if d then if wr.zeroExtend 32 < dar then x - (wr.zeroExtend 32 + 1#32) else x
      else if (((x + wr.zeroExtend 32 + 1#32) ^^^ x) &&& dar) ≤ wr.zeroExtend 32
        then x + wr.zeroExtend 32 + 1#32 else x).extractLsb' 0 16 =
    BitVec.ofInt 16
      (if d' then if dar.toNat > wr.toNat then (x.toNat : Int) - (wr.toNat + 1) else x.toNat
        else if ((u32 (x.toNat + wr.toNat + 1) ^^^ x.toNat) &&& dar.toNat) ≤ wr.toNat
          then (x.toNat : Int) + wr.toNat + 1 else x.toNat) := by
  have lower : wr.zeroExtend 32 < dar ↔ dar.toNat > wr.toNat := by
    rw [BitVec.lt_def, widened_toNat]
  have raise : (((x + wr.zeroExtend 32 + 1#32) ^^^ x) &&& dar) ≤ wr.zeroExtend 32 ↔
      ((u32 (x.toNat + wr.toNat + 1) ^^^ x.toNat) &&& dar.toNat) ≤ wr.toNat := by
    rw [BitVec.le_def, BitVec.toNat_and, BitVec.toNat_xor, raised_toNat, widened_toNat]
  by_cases h : d'
  · rw [if_pos h, if_pos (branch.mpr h), low16_lowered lower, widened_toNat]
  · rw [if_neg h, if_neg (branch.not.mpr h), low16_raised raise, widened_toNat]

theorem addIxAddr_eq_addIxInt (ar wr ix : Word) :
    addIxAddr ar wr ix = BitVec.ofInt 16 (addIxInt ar.toNat wr.toNat ix.toInt) := by
  have low := low16_corrected (Iff.refl (0 ≤ ix.toInt)) (ar.zeroExtend 32 + ix.signExtend 32)
    (((ar.zeroExtend 32 + ix.signExtend 32) ^^^ ar.zeroExtend 32 ^^^ ix.signExtend 32) &&& wrapMx (wr.zeroExtend 32))
    wr
  rwa [BitVec.toNat_and, BitVec.toNat_xor, BitVec.toNat_xor, sum_toNat, widened_toNat, signExtended_toNat,
    wrapMx_toNat] at low

theorem subIxAddr_eq_subIxInt (ar wr ix : Word) :
    subIxAddr ar wr ix = BitVec.ofInt 16 (subIxInt ar.toNat wr.toNat ix.toInt) := by
  have low := low16_corrected (negative_delta_iff ix) (ar.zeroExtend 32 - ix.signExtend 32)
    (((ar.zeroExtend 32 - ix.signExtend 32) ^^^ ar.zeroExtend 32 ^^^ ~~~ix.signExtend 32) &&& wrapMx (wr.zeroExtend 32))
    wr
  rwa [BitVec.toNat_and, BitVec.toNat_xor, BitVec.toNat_xor, difference_toNat, widened_toNat, not_signExtended_toNat,
    wrapMx_toNat] at low

/-! ### The address-unit commands -/

theorem exec_arinc (n : Four) (q : Bool) (s : State) :
    exec (.arinc n q) s = .next (finishAddr n q (incAddr (s.ar.get n) (s.wr.get n)) s) := rfl
theorem exec_ardec (n : Four) (q : Bool) (s : State) :
    exec (.ardec n q) s = .next (finishAddr n q (decAddr (s.ar.get n) (s.wr.get n)) s) := rfl
theorem exec_araddix (n : Four) (q : Bool) (s : State) :
    exec (.araddix n q) s = .next (finishAddr n q (addIxAddr (s.ar.get n) (s.wr.get n) (s.ix.get n)) s) := rfl
theorem exec_arsubix (n : Four) (q : Bool) (s : State) :
    exec (.arsubix n q) s = .next (finishAddr n q (subIxAddr (s.ar.get n) (s.wr.get n) (s.ix.get n)) s) := rfl

/-- The three ends of a command `i q` that computes the address `v`: the register written, the write queued, or the
queue found full (rules R69 to R72, R100). -/
theorem addressCommand_writes_queues_or_faults {i : Bool → Instr} {n : Four} {v : Word} {s : State}
    (run : ∀ q, exec (i q) s = .next (finishAddr n q v s)) :
    exec (i false) s = .next { s with
        ar := s.ar.set n v, rspData := BitVec.ofNat 40 v.toNat, rspCond := false }
    ∧ (s.wbq.length ≠ s.cfg.wbCapacity → exec (i true) s = .next { s with
        wbq := s.wbq ++ [(.ar n, v)], rspData := BitVec.ofNat 40 v.toNat, rspCond := false })
    ∧ (s.wbq.length = s.cfg.wbCapacity → exec (i true) s = .next { s with
        fWbovf := true, rspData := 0#40, rspCond := false }) := by
  rw [run false, run true, finishAddr_direct, finishAddr_queued, BitVec.ofNat_toNat]
  refine ⟨rfl, fun room => ?_, fun full => ?_⟩
  · rw [queueWrite_of_room room]; rfl
  · rw [queueWrite_of_full full]; rfl

/-- Settles O18: the model's address is `incInt` by `incAddr_eq_incInt`. -/
theorem arincWritesOrQueuesTheIncrement : Obligations.ArincWritesOrQueuesTheIncrement := by
  intro n s
  have word : ∀ q, encode (.arinc n q) = wordOf ⟨0x04#6, q, 0#3 ++ bitsOfFour n, 0#4, 0#8, 0#40⟩ := fun _ => rfl
  exact ⟨word, _, incAddr_eq_incInt _ _, addressCommand_writes_queues_or_faults (exec_arinc n · s)⟩

/-- Settles O19: the model's address is `decInt` by `decAddr_eq_decInt`. -/
theorem ardecWritesOrQueuesTheDecrement : Obligations.ArdecWritesOrQueuesTheDecrement := by
  intro n s
  have word : ∀ q, encode (.ardec n q) = wordOf ⟨0x05#6, q, 0#3 ++ bitsOfFour n, 0#4, 0#8, 0#40⟩ := fun _ => rfl
  exact ⟨word, _, decAddr_eq_decInt _ _, addressCommand_writes_queues_or_faults (exec_ardec n · s)⟩

/-- Settles O20: the model's address is `addIxInt` by `addIxAddr_eq_addIxInt`. -/
theorem araddixWritesOrQueuesTheSum : Obligations.AraddixWritesOrQueuesTheSum := by
  intro n s
  have word : ∀ q, encode (.araddix n q) = wordOf ⟨0x06#6, q, 0#3 ++ bitsOfFour n, 0#4, 0#8, 0#40⟩ := fun _ => rfl
  exact ⟨word, _, addIxAddr_eq_addIxInt _ _ _, addressCommand_writes_queues_or_faults (exec_araddix n · s)⟩

/-- Settles O21: the model's address is `subIxInt` by `subIxAddr_eq_subIxInt`. -/
theorem arsubixWritesOrQueuesTheDifference : Obligations.ArsubixWritesOrQueuesTheDifference := by
  intro n s
  have word : ∀ q, encode (.arsubix n q) = wordOf ⟨0x07#6, q, 0#3 ++ bitsOfFour n, 0#4, 0#8, 0#40⟩ := fun _ => rfl
  exact ⟨word, _, subIxAddr_eq_subIxInt _ _ _, addressCommand_writes_queues_or_faults (exec_arsubix n · s)⟩

end Sys2Proof.Proofs
end

section
/-! PROOFS. The accessors of the accumulators and of the product register (rules R75 to R81), their windows and
fields read as quotients of the long value. -/

namespace Sys2Proof.Proofs

open Sys2Proof Sys2Proof.Machine Sys2Proof.Safety

/-! ### The byte and the two words of a long value -/

/-- A word of a long value as a quotient of its number. -/
theorem slice_eq_ofNat (v : Long) (k : Nat) : v.extractLsb' k 16 = BitVec.ofNat 16 (v.toNat / 2 ^ k) := by
  apply BitVec.eq_of_toNat_eq
  rw [BitVec.extractLsb'_toNat, BitVec.toNat_ofNat, Nat.shiftRight_eq_div_pow]

/-- The signed high byte is the floor quotient of the signed value. -/
theorem highByte_toInt (v : Long) : (v.extractLsb' 32 8).toInt = v.toInt / 2 ^ 32 := by
  have bound := v.isLt
  rw [BitVec.toInt_eq_toNat_bmod, BitVec.toInt_eq_toNat_bmod, BitVec.extractLsb'_toNat, Nat.shiftRight_eq_div_pow,
    Int.bmod_def, Int.bmod_def]
  omega

/-! ### The accumulators -/

/-- The concatenation of rule R11 as a number. -/
theorem acc_long_toNat (x : Acc) : x.long.toNat = accNat x := by
  have mid := x.m.isLt
  have low := x.l.isLt
  rw [Acc.long, BitVec.toNat_append, BitVec.toNat_append, BitVec.extractLsb'_toNat, accNat,
    ← Nat.shiftLeft_add_eq_or_of_lt low, ← Nat.shiftLeft_add_eq_or_of_lt mid, Nat.shiftLeft_eq, Nat.shiftLeft_eq,
    Nat.shiftRight_zero]
  omega

/-- The windows of rule R76 as quotients of the value, the sign-extended high one a quotient of the signed value. -/
theorem accOfLong_eq (v : Long) :
    accOfLong v =
      ⟨BitVec.ofInt 16 (v.toInt / 2 ^ 32), BitVec.ofNat 16 (v.toNat / 2 ^ 16), BitVec.ofNat 16 v.toNat⟩ := by
  rw [accOfLong, BitVec.signExtend, highByte_toInt, slice_eq_ofNat, slice_eq_ofNat, Nat.pow_zero, Nat.div_one]

/-- The three windows hold every bit of the value written (rule R81 (a)). -/
theorem accOfLong_long (v : Long) : (accOfLong v).long = v := by
  apply BitVec.eq_of_toNat_eq
  have bound := v.isLt
  rw [acc_long_toNat, accOfLong_eq, accNat]
  simp only [BitVec.toInt_eq_toNat_bmod, BitVec.toNat_ofInt, BitVec.toNat_ofNat, Int.bmod_def]
  omega

/-- The sign of the mid window is its bit 15. -/
theorem bit15_iff_negative (m : Word) : m.getLsbD 15 = true ↔ m.toInt < 0 := by
  rw [← BitVec.msb_eq_getLsbD_last, BitVec.msb_eq_toInt, decide_eq_true_iff]

theorem extendMid_eq (x : Acc) :
    extendMid x = ⟨if x.m.toInt < 0 then 0xFFFF#16 else 0x0000#16, x.m, 0x0000#16⟩ := by
  simp only [extendMid, bit15_iff_negative]

/-- The extension leaves the signed mid window, scaled by its place in the long value (rule R77). -/
theorem extendMid_value (x : Acc) : (accNat (extendMid x) : Int).bmod (2 ^ 40) = x.m.toInt * 2 ^ 16 := by
  have bound := x.m.isLt
  have sign := BitVec.toInt_eq_toNat_cond x.m
  rw [extendMid_eq, accNat]
  by_cases negative : x.m.toInt < 0
  · simp only [if_pos negative, BitVec.toNat_ofNat, Int.bmod_def]
    omega
  · simp only [if_neg negative, BitVec.toNat_ofNat, Int.bmod_def]
    omega

/-! ### The product register -/

/-- The fields of rule R80 as quotients of the value. -/
theorem productOfLong_eq (v : Long) : productOfLong v = fieldsOfLong v := by
  have high : (v.extractLsb' 32 8).zeroExtend 16 = BitVec.ofNat 16 (v.toNat / 2 ^ 32) := by
    apply BitVec.eq_of_toNat_eq
    rw [BitVec.toNat_setWidth, BitVec.extractLsb'_toNat, BitVec.toNat_ofNat, Nat.shiftRight_eq_div_pow]
    have bound := v.isLt
    omega
  rw [productOfLong, fieldsOfLong, high, slice_eq_ofNat, slice_eq_ofNat, Nat.pow_zero, Nat.div_one]

/-- The zero-extended high byte is still signed where rule R15 reads it. -/
theorem fieldsOfLong_high (v : Long) : s8 (fieldsOfLong v).h = v.toInt / 2 ^ 32 := by
  have byte : (productOfLong v).h.extractLsb' 0 8 = v.extractLsb' 32 8 := by
    rw [productOfLong, BitVec.zeroExtend, ← BitVec.setWidth_eq_extractLsb' (by decide),
      BitVec.setWidth_setWidth_of_le _ (by decide), BitVec.setWidth_eq]
  rw [← productOfLong_eq, ← lowByte_toInt, byte, highByte_toInt]

/-- With `m2` cleared the sum of rule R15 is the value written, with nothing to reduce. -/
theorem prodSum_fieldsOfLong (v : Long) : prodSum (fieldsOfLong v) = v.toInt := by
  have low : v.toInt % 2 ^ 32 = (v.toNat % 2 ^ 32 : Nat) := by
    rw [BitVec.toInt_eq_toNat_cond]
    omega
  rw [prodSum, fieldsOfLong_high]
  simp only [fieldsOfLong, BitVec.toNat_ofNat]
  omega

/-- `PRODGET` reads a value just written (rule R81 (b)). -/
theorem productOfLong_long (v : Long) : (productOfLong v).long = v := by
  apply BitVec.eq_of_toInt_eq
  rw [product_long_toInt, productOfLong_eq, prodInt, prodSum_fieldsOfLong, BitVec.toInt_bmod_cancel]

/-- Clearing the low 16 bits takes the multiple of 2^16 at or below. -/
theorem wrap40_cleared (t : Int) : wrap40 t &&& ~~~0xFFFF#40 = wrap40 (2 ^ 16 * (t / 2 ^ 16)) := by
  have mask : ~~~0xFFFF#40 = BitVec.allOnes 40 <<< 16 := by decide
  rw [mask, ← BitVec.shiftLeft_ushiftRight]
  apply BitVec.eq_of_toNat_eq
  simp only [wrap40, BitVec.toNat_shiftLeft, BitVec.toNat_ushiftRight, BitVec.toNat_ofInt, Nat.shiftLeft_eq,
    Nat.shiftRight_eq_div_pow]
  omega

/-- Bit 16 is the parity of the multiple of 2^16 at or below the signed value. -/
theorem bit16_iff_odd (p : Long) : p.getLsbD 16 = true ↔ p.toInt / 2 ^ 16 % 2 = 1 := by
  have bound := p.isLt
  rw [BitVec.getLsbD, Nat.testBit_eq_decide_div_mod_eq, decide_eq_true_iff, BitVec.toInt_eq_toNat_bmod, Int.bmod_def]
  omega

/-- The multiple is the floor quotient of the biased value: a bias of a half lifts a tie to the next multiple, which is
even where bit 16 is set; one less lets it fall to the even multiple below (rule R79). -/
theorem roundLong_nearest (p : Long) : ∃ m : Int,
    (2 ^ 16 * m - p.toInt).natAbs ≤ 0x8000 ∧ ((2 ^ 16 * m - p.toInt).natAbs = 0x8000 → m % 2 = 0) ∧
      roundLong p = BitVec.ofInt 40 (2 ^ 16 * m) := by
  rw [roundLong]
  by_cases odd : p.toInt / 2 ^ 16 % 2 = 1
  · simp only [if_pos ((bit16_iff_odd p).mpr odd)]
    exact ⟨(p.toInt + 0x8000) / 2 ^ 16, by omega, by omega, wrap40_cleared _⟩
  · simp only [if_neg ((bit16_iff_odd p).not.mpr odd)]
    exact ⟨(p.toInt + 0x7FFF) / 2 ^ 16, by omega, by omega, wrap40_cleared _⟩

/-! ### The commands -/

theorem exec_accget (a : Two) (s : State) : exec (.accget a) s = .next (respond (s.ac.get a).long s) := rfl
theorem exec_accset (a : Two) (v : Long) (s : State) :
    exec (.accset a v) s = .next (respond 0#40 { s with ac := s.ac.set a (accOfLong v) }) := rfl
theorem exec_prodgetr (s : State) : exec .prodgetr s = .next (respond (roundLong s.prod.long) s) := rfl
theorem exec_prodset (v : Long) (s : State) :
    exec (.prodset v) s = .next (respond 0#40 { s with prod := productOfLong v }) := rfl

theorem exec_cext_mid (a : Two) (s : State) :
    exec (.cext (.acm a)) s = .next (respond 0#40
      (if s.sr.getLsbD 14 then { s with ac := s.ac.set a (extendMid (s.ac.get a)) } else s)) := rfl

/-- The case of rule R77 that acts: a mid-window index in 40-bit mode. -/
theorem exec_cext_extends {s : State} (a : Two) (sxm : s.sr.getLsbD 14 = true) :
    exec (.cext (.acm a)) s = .next (respond 0#40 { s with ac := s.ac.set a (extendMid (s.ac.get a)) }) := by
  rw [exec_cext_mid, if_pos sxm]

/-- Every other case of rule R77. -/
theorem exec_cext_idle {i : Reg} {s : State} (idle : s.sr.getLsbD 14 = false ∨ ∀ a, i ≠ .acm a) :
    exec (.cext i) s = .next (respond 0#40 s) := by
  cases i with
  | acm a =>
    have sxm : ¬ s.sr.getLsbD 14 = true := by
      rcases idle with off | other
      · rw [off]; decide
      · exact absurd rfl (other a)
    rw [exec_cext_mid, if_neg sxm]
  | _ => rfl

/-- Settles O25: the concatenated windows are the number `accNat` by `acc_long_toNat`. -/
theorem accgetAnswersTheLongValue : Obligations.AccgetAnswersTheLongValue := by
  intro a s
  have word : encode (.accget a) = wordOf ⟨0x08#6, false, 0#4 ++ BitVec.ofBool (bitOfTwo a), 0#4, 0#8, 0#40⟩ := rfl
  refine ⟨word, ?_⟩
  rw [exec_accget, ← acc_long_toNat, BitVec.ofNat_toNat, BitVec.setWidth_eq]
  rfl

/-- Settles O26: the windows are the quotients of `accOfLong_eq`, and `accOfLong_long` reads them back. -/
theorem accsetWritesTheThreeWindows : Obligations.AccsetWritesTheThreeWindows := by
  intro a v s
  have word : encode (.accset a v) = wordOf ⟨0x09#6, false, 0#4 ++ BitVec.ofBool (bitOfTwo a), 0#4, 0#8, v⟩ := rfl
  refine ⟨word, _, exec_accset a v s, ?written, ?readBack⟩
  case written => rw [accOfLong_eq]; rfl
  case readBack =>
    rw [exec_accget, respond_ac, Bank2.get_set_self, accOfLong_long]
    rfl

/-- Settles O27: the two clauses are the two cases of `exec_cext_extends` and `exec_cext_idle`. -/
theorem cextExtendsTheMidWindow : Obligations.CextExtendsTheMidWindow := by
  intro s
  have word : ∀ i, encode (.cext i) = wordOf ⟨0x0A#6, false, indexOfReg i, 0#4, 0#8, 0#40⟩ := fun _ => rfl
  refine ⟨word, fun a sxm => ?_, fun i idle => exec_cext_idle idle⟩
  exact ⟨extendMid (s.ac.get a), extendMid_eq _, exec_cext_extends a sxm, extendMid_value _⟩

/-- Settles O29: `roundLong_nearest` at the product value, which is `prodInt` by `product_long_toInt`. -/
theorem prodgetrRoundsToTheNearestMultiple : Obligations.ProdgetrRoundsToTheNearestMultiple := by
  intro s
  have word : encode .prodgetr = wordOf ⟨0x0C#6, false, 0#5, 0#4, 0#8, 0#40⟩ := rfl
  obtain ⟨m, near, tie, rounded⟩ := roundLong_nearest s.prod.long
  rw [product_long_toInt] at near tie
  refine ⟨word, m, near, tie, ?_⟩
  rw [exec_prodgetr, rounded]
  rfl

/-- Settles O30: the fields are those of `productOfLong_eq`, and `productOfLong_long` reads them back. -/
theorem prodsetSplitsTheLongValue : Obligations.ProdsetSplitsTheLongValue := by
  intro v s
  have word : encode (.prodset v) = wordOf ⟨0x0D#6, false, 0#5, 0#4, 0#8, v⟩ := rfl
  refine ⟨word, _, exec_prodset v s, ?written, ?readBack⟩
  case written => rw [productOfLong_eq]; rfl
  case readBack =>
    rw [exec_prodget, respond_prod, productOfLong_long]
    rfl

end Sys2Proof.Proofs
end

section
/-! PROOFS. The multiplier (rules R82 to R88): the product of rule R83 over the integers and its range, and the one end
the four commands share. -/

namespace Sys2Proof.Proofs

open Sys2Proof Sys2Proof.Machine Sys2Proof.Safety

/-! ### The product (rule R83) -/

/-- The three readings of the operands that rule R83 chooses from. -/
theorem rawProduct_cases (su : Bool) (m : MulMode) (a b : Word) :
    rawProduct su m a b = a.toInt * b.toInt ∨ rawProduct su m a b = (a.toNat : Int) * b.toNat ∨
      rawProduct su m a b = (a.toNat : Int) * b.toInt := by
  cases su with
  | false => cases m <;> exact .inl rfl
  | true =>
    cases m with
    | ss => exact .inl rfl
    | uu => exact .inr (.inl rfl)
    | us => exact .inr (.inr rfl)

/-- A signed reading of a word. -/
theorem toInt_bounds (a : Word) : -(2 ^ 15) ≤ a.toInt ∧ a.toInt ≤ 2 ^ 15 - 1 :=
  ⟨BitVec.le_toInt a, Int.le_sub_one_of_lt BitVec.toInt_lt⟩

/-- The least product is mixed, 65535 times -32768; the greatest is unsigned, 65535 squared. -/
theorem rawProduct_bounds (su : Bool) (m : MulMode) (a b : Word) :
    -(2 ^ 31 - 2 ^ 15) ≤ rawProduct su m a b ∧ rawProduct su m a b ≤ 2 ^ 32 - 2 ^ 17 + 1 := by
  have ua : (a.toNat : Int) ≤ 2 ^ 16 - 1 := by omega
  have ub : (b.toNat : Int) ≤ 2 ^ 16 - 1 := by omega
  obtain ⟨la, ha⟩ := toInt_bounds a
  obtain ⟨lb, hb⟩ := toInt_bounds b
  rcases rawProduct_cases su m a b with signed | unsigned | mixed
  · rw [signed]
    constructor <;> nlinarith only [la, ha, lb, hb]
  · rw [unsigned]
    constructor <;> nlinarith only [ua, ub, Int.natCast_nonneg a.toNat, Int.natCast_nonneg b.toNat]
  · rw [mixed]
    constructor <;> nlinarith only [ua, Int.natCast_nonneg a.toNat, lb, hb]

/-- The doubling keeps the product well inside the 40-bit signed range (rule R89 (b)). -/
theorem mulProd_bounds (su am : Bool) (m : MulMode) (a b : Word) :
    -(2 ^ 32 - 2 ^ 16) ≤ mulProd su am m a b ∧ mulProd su am m a b ≤ 2 ^ 33 - 2 ^ 18 + 2 := by
  obtain ⟨low, high⟩ := rawProduct_bounds su m a b
  cases am with
  | false => simp only [mulProd]; omega
  | true => simp only [mulProd]; omega

theorem mulProd_eq_factor (su am : Bool) (m : MulMode) (a b : Word) :
    mulProd su am m a b = (if am then 1 else 2) * rawProduct su m a b := by
  cases am with
  | false => rfl
  | true => exact (Int.one_mul _).symm

/-- The bits `SU` and `AM` of `SR` are its bits 15 and 13 (rule R21). -/
theorem mulProd_eq_mulInt (sr : Word) (m : MulMode) (a b : Word) :
    mulProd (srSU sr) (srAM sr) m a b = mulInt sr m a b := by
  rw [mulProd_eq_factor, srSU, srAM]
  unfold mulInt
  cases sr.getLsbD 15 with
  | false => cases m <;> rfl
  | true => cases m <;> rfl

/-- The wrap of rules R85 and R88 changes no product. -/
theorem wrap40_mulProd (sr : Word) (m : MulMode) (a b : Word) :
    (wrap40 (mulProd (srSU sr) (srAM sr) m a b)).toInt = mulInt sr m a b := by
  obtain ⟨low, high⟩ := mulProd_bounds (srSU sr) (srAM sr) m a b
  rw [wrap40_toInt, ← mulProd_eq_mulInt]
  exact Int.bmod_eq_of_le (by omega) (by omega)

/-! ### The commands -/

/-- The end of every multiplier command (rule R84), the fields written as quotients of the result. -/
theorem finishMul_eq_fields (r : Long) (w : Bool) (s : State) :
    finishMul r w s =
      { s with prod := if w then fieldsOfLong r else s.prod, rspData := r, rspCond := false } := by
  rw [finishMul_eq, productOfLong_eq, respond]

theorem exec_mul (m : MulMode) (w : Bool) (a b : Word) (s : State) :
    exec (.mul m w a b) s = .next (finishMul (wrap40 (mulProd (srSU s.sr) (srAM s.sr) m a b)) w s) := rfl
theorem exec_mac (m : MulMode) (w : Bool) (a b : Word) (s : State) :
    exec (.mac m w a b) s =
      .next (finishMul (wrap40 (s.prod.long.toInt + mulProd (srSU s.sr) (srAM s.sr) m a b)) w s) := rfl
theorem exec_msub (m : MulMode) (w : Bool) (a b : Word) (s : State) :
    exec (.msub m w a b) s =
      .next (finishMul (wrap40 (s.prod.long.toInt - mulProd (srSU s.sr) (srAM s.sr) m a b)) w s) := rfl
theorem exec_mulx (sa sb w : Bool) (s : State) :
    exec (.mulx sa sb w) s = .next (finishMul (wrap40
      (mulxProd (srSU s.sr) (srAM s.sr) sa sb ((s.ax.get .i0).half sa) ((s.ax.get .i1).half sb))) w s) := rfl

/-- Settles O32: the product is in the 40-bit range, so the answer is the product itself by `wrap40_mulProd`. -/
theorem mulAnswersTheExactProduct : Obligations.MulAnswersTheExactProduct := by
  intro m w a b s
  have word : encode (.mul m w a b) = wordOf ⟨0x10#6, w, 0#3 ++ bitsOfMode m, 0#4, 0#8, 0#8 ++ b ++ a⟩ := rfl
  refine ⟨word, _, wrap40_mulProd s.sr m a b, ?_⟩
  rw [exec_mul, finishMul_eq_fields]

/-- Settles O33: the product value is `prodInt` by `product_long_toInt`, and `wrap40` reduces the sum. -/
theorem macAddsTheProduct : Obligations.MacAddsTheProduct := by
  intro m w a b s
  have word : encode (.mac m w a b) = wordOf ⟨0x11#6, w, 0#3 ++ bitsOfMode m, 0#4, 0#8, 0#8 ++ b ++ a⟩ := rfl
  refine ⟨word, _, wrap40_toInt _, ?_⟩
  rw [exec_mac, finishMul_eq_fields, product_long_toInt, mulProd_eq_mulInt]

/-- Settles O34: the product value is `prodInt` by `product_long_toInt`, and `wrap40` reduces the difference. -/
theorem msubSubtractsTheProduct : Obligations.MsubSubtractsTheProduct := by
  intro m w a b s
  have word : encode (.msub m w a b) = wordOf ⟨0x12#6, w, 0#3 ++ bitsOfMode m, 0#4, 0#8, 0#8 ++ b ++ a⟩ := rfl
  refine ⟨word, _, wrap40_toInt _, ?_⟩
  rw [exec_msub, finishMul_eq_fields, product_long_toInt, mulProd_eq_mulInt]

/-- Settles O35: each row of the table is a product of rule R83 with its own mode and operands, which
`wrap40_mulProd` leaves exact. -/
theorem mulxMultipliesTheSelectedHalves : Obligations.MulxMultipliesTheSelectedHalves := by
  intro sa sb w s
  have word : encode (.mulx sa sb w) =
      wordOf ⟨0x13#6, w, 0#3 ++ BitVec.ofBool sa ++ BitVec.ofBool sb, 0#4, 0#8, 0#40⟩ := rfl
  refine ⟨word, _, ?product, by rw [exec_mulx, finishMul_eq_fields]⟩
  cases sa with
  | false =>
    cases sb with
    | false => exact wrap40_mulProd s.sr .uu (s.ax.get .i0).l (s.ax.get .i1).l
    | true => exact wrap40_mulProd s.sr .us (s.ax.get .i0).l (s.ax.get .i1).h
  | true =>
    cases sb with
    | false => exact wrap40_mulProd s.sr .us (s.ax.get .i1).l (s.ax.get .i0).h
    | true => exact wrap40_mulProd s.sr .ss (s.ax.get .i0).h (s.ax.get .i1).h

end Sys2Proof.Proofs
end

section
/-! PROOFS. The status register bit by bit (rules R91 to R94) and the condition table read from it
(rules R95 and R96). -/

namespace Sys2Proof.Proofs

open Sys2Proof Sys2Proof.Machine Sys2Proof.Safety

/-! ### The flag updates, bit by bit -/

theorem orIf_getLsbD (b : Bool) (mask t : Word) (j : Nat) :
    (orIf b mask t).getLsbD j = (t.getLsbD j || (b && mask.getLsbD j)) := by
  cases b with
  | false => rw [orIf, if_neg Bool.false_ne_true, Bool.false_and, Bool.or_false]
  | true => rw [orIf, if_pos rfl, Bool.true_and, BitVec.getLsbD_or]

/-- Every mask of the flag updates lies in the low byte. -/
theorem mask_getLsbD_high {mask : Word} (low : mask.toNat < 2 ^ 8) (j : Nat) : mask.getLsbD (j + 8) = false :=
  Nat.testBit_lt_two_pow (low.trans_le (Nat.pow_le_pow_right (by decide) (Nat.le_add_left 8 j)))

/-- Clearing a mask outside the bits it covers. -/
theorem cleared_getLsbD {mask : Word} {j : Nat} (out : mask.getLsbD j = false) (sr : Word) :
    (sr &&& ~~~mask).getLsbD j = sr.getLsbD j := by
  rw [BitVec.getLsbD_and, BitVec.getLsbD_not, out, Bool.not_false, Bool.and_true]
  by_cases inside : j < 16
  · rw [decide_eq_true inside, Bool.and_true]
  · rw [BitVec.getLsbD_of_ge sr j (by omega), Bool.false_and]

/-- What rules R92 and R93 share: bits 0 to 5 are the arguments, `OS` is sticky, `LZ` and the high byte are kept. -/
theorem updateFlags_getLsbD (sr : Word) (c o zero neg over32 tb : Bool) (j : Nat) :
    (updateFlags sr c o zero neg over32 tb).getLsbD j =
      match j with
      | 0 => c
      | 1 => o
      | 2 => zero
      | 3 => neg
      | 4 => over32
      | 5 => tb
      | 7 => sr.getLsbD 7 || o
      | k => sr.getLsbD k := by
  simp only [updateFlags, orIf_getLsbD]
  match j with
  | 0 | 1 | 2 | 3 | 4 | 5 => simp [cmpMask]
  | 6 | 7 => rw [cleared_getLsbD rfl]; simp
  | k + 8 =>
    change _ = sr.getLsbD (k + 8)
    rw [cleared_getLsbD (mask_getLsbD_high (by decide) k)]
    simp (disch := decide) only [mask_getLsbD_high, Bool.and_false, Bool.or_false]

theorem updateFlags_getLsbD_high (sr : Word) (c o zero neg over32 tb : Bool) {j : Nat} (high : 8 ≤ j) :
    (updateFlags sr c o zero neg over32 tb).getLsbD j = sr.getLsbD j := by
  obtain ⟨k, rfl⟩ := Nat.exists_eq_add_of_le' high
  exact updateFlags_getLsbD sr c o zero neg over32 tb (k + 8)

theorem logicZeroMask_getLsbD (j : Nat) : (0x0040#16).getLsbD j = decide (j = 6) := by
  rw [show 0x0040#16 = BitVec.twoPow 16 6 from rfl, BitVec.getLsbD_twoPow]
  simp [eq_comm]

theorem srlzFlags_getLsbD (sr : Word) (b : Bool) (j : Nat) :
    (srlzFlags sr b).getLsbD j = if j = 6 then b else sr.getLsbD j := by
  by_cases lz : j = 6
  · subst lz
    cases b with
    | false => simp [srlzFlags]
    | true => simp [srlzFlags]
  · have out : (0x0040#16).getLsbD j = false := by rw [logicZeroMask_getLsbD, decide_eq_false lz]
    rw [if_neg lz]
    cases b with
    | false => exact cleared_getLsbD out sr
    | true => rw [srlzFlags, if_pos rfl, BitVec.getLsbD_or, out, Bool.or_false]

/-! ### The predicates of the updates over the integers -/

theorem decide_eq_zero_iff {n : Nat} (x : BitVec n) : decide (x = 0#n) = true ↔ x.toNat = 0 := by
  rw [decide_eq_true_iff, ← BitVec.toNat_inj, BitVec.toNat_ofNat, Nat.zero_mod]

theorem decide_negative_iff_bit39 (x : Long) : decide (x.toInt < 0) = true ↔ x.getLsbD 39 = true := by
  rw [← BitVec.msb_eq_toInt, BitVec.msb_eq_getLsbD_last]

/-- Bits 39:31 are the quotient by 2^31; all equal is all clear or all set (rule R93). -/
theorem not_fits32_iff (x : Long) :
    (!fits32 x) = true ↔ x.toNat / 2 ^ 31 ≠ 0 ∧ x.toNat / 2 ^ 31 ≠ 0x1FF := by
  have signed : x.toInt = if 2 * x.toNat < 2 ^ 40 then (x.toNat : Int) else x.toNat - 2 ^ 40 :=
    BitVec.toInt_eq_toNat_cond x
  rw [Bool.not_eq_true', fits32, Bool.and_eq_false_iff, decide_eq_false_iff_not, decide_eq_false_iff_not]
  split at signed <;> omega

/-! ### The predicates of the condition table (rules R95 and R96) -/

theorem srLess_iff (sr : Word) : srLess sr = true ↔ sr.getLsbD 1 ≠ sr.getLsbD 3 := bne_iff_ne

theorem not_srLess_iff (sr : Word) : (!srLess sr) = true ↔ sr.getLsbD 1 = sr.getLsbD 3 := by
  rw [Bool.not_eq_true', ← Bool.not_eq_true, srLess_iff, not_not]

theorem srA_iff (sr : Word) :
    srA sr = true ↔ (sr.getLsbD 4 = true ∨ sr.getLsbD 5 = true) ∧ sr.getLsbD 2 = false := by
  rw [srA, Bool.and_eq_true, Bool.or_eq_true, Bool.not_eq_true', srAS, srTB, srAZ]

/-! ### The commands -/

theorem exec_sr16 (x : Word) (c o f : Bool) (s : State) :
    exec (.sr16 x c o f) s = .next (respond 0#40 { s with sr := sr16Flags s.sr x c o f }) := rfl
theorem exec_sr64 (x : Long) (c o : Bool) (s : State) :
    exec (.sr64 x c o) s = .next (respond 0#40 { s with sr := sr64Flags s.sr x c o }) := rfl
theorem exec_srlz (b : Bool) (s : State) :
    exec (.srlz b) s = .next (respond 0#40 { s with sr := srlzFlags s.sr b }) := rfl
theorem exec_cond (cc : Cond) (s : State) :
    exec (.cond cc) s = .next { s with rspData := 0#40, rspCond := condTrue cc s.sr } := rfl

/-- Settles O40: the bits of `srlzFlags_getLsbD`. -/
theorem srlzWritesOnlyLogicZero : Obligations.SrlzWritesOnlyLogicZero := by
  intro b s
  have word : encode (.srlz b) = wordOf ⟨0x1A#6, false, 0#5, 0#3 ++ BitVec.ofBool b, 0#8, 0#40⟩ := rfl
  exact ⟨word, srlzFlags s.sr b, exec_srlz b s, srlzFlags_getLsbD s.sr b⟩

/-- Settles O38: each bit is that of `updateFlags_getLsbD`, and the sign is bit 15 by `bit15_iff_negative`. -/
theorem sr16SetsTheFlags : Obligations.Sr16SetsTheFlags := by
  intro x c o f s
  have word : encode (.sr16 x c o f) =
      wordOf ⟨0x18#6, false, 0#5, 0#1 ++ BitVec.ofBool f ++ BitVec.ofBool o ++ BitVec.ofBool c, 0#8, 0#24 ++ x⟩ := rfl
  have bits : ∀ j, (sr16Flags s.sr x c o f).getLsbD j = _ :=
    updateFlags_getLsbD s.sr c o (decide (x = 0#16)) (x.getLsbD 15) f (x.getLsbD 15 == x.getLsbD 14)
  refine ⟨word, sr16Flags s.sr x c o f, exec_sr16 x c o f s, bits 0, bits 1, ?zero, ?negative, bits 4, ?top,
    bits 6, bits 7, fun j high => updateFlags_getLsbD_high s.sr c o _ _ _ _ high⟩
  case zero => rw [bits 2]; exact decide_eq_zero_iff x
  case negative => rw [bits 3]; exact bit15_iff_negative x
  case top => rw [bits 5]; exact beq_iff_eq

/-- Settles O39: each bit is that of `updateFlags_getLsbD`, and over-S32 is read from bits 39:31 by
`not_fits32_iff`. -/
theorem sr64SetsTheFlags : Obligations.Sr64SetsTheFlags := by
  intro x c o s
  have word : encode (.sr64 x c o) =
      wordOf ⟨0x19#6, false, 0#5, 0#2 ++ BitVec.ofBool o ++ BitVec.ofBool c, 0#8, x⟩ := rfl
  have bits : ∀ j, (sr64Flags s.sr x c o).getLsbD j = _ :=
    updateFlags_getLsbD s.sr c o (decide (x = 0#40)) (decide (x.toInt < 0)) (!fits32 x) (x.getLsbD 31 == x.getLsbD 30)
  refine ⟨word, sr64Flags s.sr x c o, exec_sr64 x c o s, bits 0, bits 1, ?zero, ?negative, ?over32, ?top,
    bits 6, bits 7, fun j high => updateFlags_getLsbD_high s.sr c o _ _ _ _ high⟩
  case zero => rw [bits 2]; exact decide_eq_zero_iff x
  case negative => rw [bits 3]; exact decide_negative_iff_bit39 x
  case over32 => rw [bits 4]; exact not_fits32_iff x
  case top => rw [bits 5]; exact beq_iff_eq

/-- Settles O41: one row of the table of rule R96 for each code, by the readings of `less` and of condition A. -/
theorem condAnswersTheConditionTable : Obligations.CondAnswersTheConditionTable := by
  intro cc s
  have word : encode (.cond cc) = wordOf ⟨0x1B#6, false, 0#5, bitsOfCond cc, 0#8, 0#40⟩ := rfl
  refine ⟨word, condTrue cc s.sr, exec_cond cc s, ?_⟩
  have clear : ∀ b : Bool, (!b) = true ↔ b = false := fun b => by rw [Bool.not_eq_true']
  cases cc with
  | ge => exact not_srLess_iff s.sr
  | l => exact srLess_iff s.sr
  | g => exact Bool.and_eq_true_iff.trans (and_congr (not_srLess_iff s.sr) (clear _))
  | le => exact Bool.or_eq_true_iff.trans (or_congr_left (srLess_iff s.sr))
  | nz | nc | nas | lnz => exact clear _
  | z | c | as | lz | o => exact Iff.rfl
  | a => exact srA_iff s.sr
  | na => exact (clear _).trans (Bool.eq_false_iff.trans (not_congr (srA_iff s.sr)))
  | t => exact iff_true_intro rfl

end Sys2Proof.Proofs
end

section
/-! PROOFS. The write-back queue (rules R99 to R106): what one entry of a flush does in terms of `REGRD` and `REGWR`,
and the four commands by the last entry of the queue. -/

namespace Sys2Proof.Proofs

open Sys2Proof Sys2Proof.Machine Sys2Proof.Safety

/-- The state with the queue `q` in place of its own. -/
def withQueue (q : List (Reg × Word)) (s : State) : State := { s with wbq := q }

/-- A state that holds the queue `q` has it in place. -/
theorem withQueue_eq_self {s : State} {q : List (Reg × Word)} (held : s.wbq = q) : withQueue q s = s := by
  rw [← held, withQueue]

theorem withQueue_precise (q : List (Reg × Word)) (s : State) : (withQueue q s).precise = s.precise := rfl

/-! ### The accessors look neither at the response nor at the queue -/

theorem regValue_respond (i : Reg) (x : Long) (s : State) : regValue i (respond x s) = regValue i s := by
  cases i <;> rfl
theorem afterRead_respond (i : Reg) (x : Long) (s : State) :
    afterRead i (respond x s) = respond x (afterRead i s) := by cases i <;> rfl
theorem regWrite_respond (i : Reg) (v : Word) (x : Long) (s : State) :
    regWrite i v (respond x s) = respond x (regWrite i v s) := by cases i <;> rfl

theorem regValue_withQueue (i : Reg) (q : List (Reg × Word)) (s : State) :
    regValue i (withQueue q s) = regValue i s := by cases i <;> rfl
theorem afterRead_withQueue (i : Reg) (q : List (Reg × Word)) (s : State) :
    afterRead i (withQueue q s) = withQueue q (afterRead i s) := by cases i <;> rfl
theorem regWrite_withQueue (i : Reg) (v : Word) (q : List (Reg × Word)) (s : State) :
    regWrite i v (withQueue q s) = withQueue q (regWrite i v s) := regWrite_with_wbq i v s q

theorem flushEntry_respond (e : Reg × Word) (x : Long) (s : State) :
    flushEntry (respond x s) e = respond x (flushEntry s e) := by
  simp only [flushEntry, respond_precise, regValue_respond, afterRead_respond, regWrite_respond]
  split_ifs <;> rfl
theorem flushEntry_withQueue (e : Reg × Word) (q : List (Reg × Word)) (s : State) :
    flushEntry (withQueue q s) e = withQueue q (flushEntry s e) := by
  simp only [flushEntry, withQueue_precise, regValue_withQueue, afterRead_withQueue, regWrite_withQueue]
  split_ifs <;> rfl

theorem afterRead_precise (i : Reg) (s : State) : (afterRead i s).precise = s.precise := by cases i <;> rfl
theorem flushEntry_keeps_precise (s : State) (e : Reg × Word) : (flushEntry s e).precise = s.precise := by
  rw [flushEntry]
  split_ifs
  · rw [regWrite_precise, afterRead_precise]
  · rw [regWrite_precise]

/-! ### A list of entries applied in order, whatever queue the state holds -/

theorem flushEntries_withQueue (p q : List (Reg × Word)) (s : State) :
    flushEntries p (withQueue q s) = withQueue q (flushEntries p s) :=
  List.foldl_hom (withQueue q) fun t e => flushEntry_withQueue e q t

theorem zeroEntries_withQueue (p q : List (Reg × Word)) (s : State) :
    zeroEntries p (withQueue q s) = withQueue q (zeroEntries p s) :=
  List.foldl_hom (withQueue q) fun t e => regWrite_withQueue e.1 0#16 q t

theorem zeroEntriesBut_withQueue (a : Two) (p q : List (Reg × Word)) (s : State) :
    zeroEntriesBut a p (withQueue q s) = withQueue q (zeroEntriesBut a p s) := by
  refine List.foldl_hom (withQueue q) fun t e => ?_
  split_ifs
  · rfl
  · exact regWrite_withQueue e.1 0#16 q t

theorem flushEntries_precise (q : List (Reg × Word)) (s : State) : (flushEntries q s).precise = s.precise :=
  flushEntries_keeps (P := fun t => t.precise = s.precise)
    (fun t e kept => (flushEntry_keeps_precise t e).trans kept) q s rfl

/-- The exception of rule R105. -/
theorem windowOf_iff (a : Two) (i : Reg) : windowOf a i = true ↔ i = .acl a ∨ i = .acm a ∨ i = .ach a := by
  simp only [windowOf, Bool.or_eq_true, beq_iff_eq, or_assoc]

/-! ### The commands -/

theorem exec_regrd (i : Reg) (s : State) :
    exec (.regrd i) s = .next (respond ((regValue i s).zeroExtend 40) (afterRead i s)) := rfl
theorem exec_regwr (i : Reg) (v : Word) (s : State) :
    exec (.regwr i v) s = .next (respond 0#40 (regWrite i v s)) := rfl
theorem exec_wbappend (i : Reg) (v : Word) (s : State) :
    exec (.wbappend i v) s = .next (queueWrite i v 0#40 s) := rfl

/-- The answer of `REGRD` holds the value read in its low 16 bits (rule R124). -/
theorem low16_zeroExtend (v : Word) : (v.zeroExtend 40).extractLsb' 0 16 = v := by
  apply BitVec.eq_of_toNat_eq
  simpa using v.isLt

/-- A write that follows a response. -/
theorem exec_regwr_respond (i : Reg) (v : Word) (x : Long) (s : State) :
    exec (.regwr i v) (respond x s) = .next (respond 0#40 (regWrite i v s)) := by
  rw [exec_regwr, regWrite_respond]
  rfl

/-- The three commands on a queue `q`: the entries applied, and the queue emptied or kept (rules R102, R104, R105). -/
theorem exec_wbflush_withQueue (q : List (Reg × Word)) (s : State) :
    exec .wbflush (withQueue q s) = .next (respond 0#40 (withQueue [] (flushEntries q s))) := by
  change Host.Outcome.next (respond 0#40 (withQueue [] (flushEntries q (withQueue q s)))) = _
  rw [flushEntries_withQueue]
  rfl
theorem exec_wbzero_withQueue (q : List (Reg × Word)) (s : State) :
    exec .wbzero (withQueue q s) = .next (respond 0#40 (withQueue q (zeroEntries q s))) := by
  rw [← zeroEntries_withQueue]
  rfl
theorem exec_wbzerop_withQueue (a : Two) (q : List (Reg × Word)) (s : State) :
    exec (.wbzerop a) (withQueue q s) = .next (respond 0#40 (withQueue q (zeroEntriesBut a q s))) := by
  rw [← zeroEntriesBut_withQueue]
  rfl

/-- Without `PRECISE` an entry of a flush is a `REGWR` (rule R102). -/
theorem exec_regwr_eq_flushEntry {s : State} (plain : s.precise = false) (i : Reg) (v : Word) :
    exec (.regwr i v) s = .next (respond 0#40 (flushEntry s (i, v))) := by
  rw [exec_regwr, flushEntry_plain _ plain]

/-- In precise mode an entry of a flush is a `REGRD`, and a `REGWR` of the value read ORed with the entry's
(rule R102). -/
theorem exec_regrd_regwr_eq_flushEntry {s : State} (precise : s.precise = true) (i : Reg) (v : Word) :
    ∃ r, exec (.regrd i) s = .next r ∧
      exec (.regwr i (r.rspData.extractLsb' 0 16 ||| v)) r = .next (respond 0#40 (flushEntry s (i, v))) := by
  refine ⟨_, exec_regrd i s, ?_⟩
  rw [exec_regwr_respond, respond_rspData, low16_zeroExtend, flushEntry, if_pos precise]

/-- Settles O44: the two ends of `queueWrite`. -/
theorem wbappendQueuesOrFaults : Obligations.WbappendQueuesOrFaults := by
  intro i v s
  have word : encode (.wbappend i v) = wordOf ⟨0x28#6, false, indexOfReg i, 0#4, 0#8, 0#24 ++ v⟩ := rfl
  refine ⟨word, fun room => ?_, fun full => ?_⟩
  · rw [exec_wbappend, queueWrite_of_room room]; rfl
  · rw [exec_wbappend, queueWrite_of_full full]; rfl

/-- Settles O45: the flush of `q ++ [(i, v)]` is `flushEntry` after the flush of `q`, by `flushEntries_snoc`, and that
entry is a `REGWR` by `exec_regwr_eq_flushEntry`, or a `REGRD` and a `REGWR` by `exec_regrd_regwr_eq_flushEntry`. -/
theorem wbflushAppliesEntriesInOrder : Obligations.WbflushAppliesEntriesInOrder := by
  intro s
  have word : encode .wbflush = wordOf ⟨0x29#6, false, 0#5, 0#4, 0#8, 0#40⟩ := rfl
  refine ⟨word, fun empty => ?empty, fun q i v held => ?last⟩
  case empty =>
    have done := exec_wbflush_withQueue [] s
    rwa [flushEntries_nil, withQueue_eq_self empty] at done
  case last =>
    have flushed := exec_wbflush_withQueue (q ++ [(i, v)]) s
    rw [withQueue_eq_self held, flushEntries_snoc] at flushed
    have mode : (respond 0#40 (withQueue [] (flushEntries q s))).precise = s.precise := flushEntries_precise q s
    have entry : respond 0#40 (flushEntry (respond 0#40 (withQueue [] (flushEntries q s))) (i, v)) =
        respond 0#40 (withQueue [] (flushEntry (flushEntries q s) (i, v))) := by
      rw [flushEntry_respond, flushEntry_withQueue]
      rfl
    refine ⟨_, _, exec_wbflush_withQueue q s, flushed, rfl, fun plain => ?_, fun precise => ?_⟩
    · rw [← entry]
      exact exec_regwr_eq_flushEntry (mode.trans plain) i v
    · rw [← entry]
      exact exec_regrd_regwr_eq_flushEntry (mode.trans precise) i v

/-- Settles O47: the last entry's write comes after those of `q`, by `zeroEntries_snoc`. -/
theorem wbzeroZeroesEveryTarget : Obligations.WbzeroZeroesEveryTarget := by
  intro s
  have word : encode .wbzero = wordOf ⟨0x2A#6, false, 0#5, 0#4, 0#8, 0#40⟩ := rfl
  refine ⟨word, fun empty => ?empty, fun q i v held => ?last⟩
  case empty =>
    have done := exec_wbzero_withQueue [] s
    rwa [zeroEntries_nil, withQueue_eq_self empty] at done
  case last =>
    have zeroed := exec_wbzero_withQueue (q ++ [(i, v)]) s
    rw [withQueue_eq_self held, zeroEntries_snoc, ← held] at zeroed
    refine ⟨_, _, exec_wbzero_withQueue q s, exec_regwr_respond i 0#16 _ _, ?_⟩
    rw [zeroed, regWrite_withQueue]
    rfl

/-- Settles O48: by `zeroEntriesBut_snoc` the last entry is skipped or written after those of `q`, as `windowOf_iff`
tells. -/
theorem wbzeropSparesOneAccumulator : Obligations.WbzeropSparesOneAccumulator := by
  intro a s
  have word : encode (.wbzerop a) =
      wordOf ⟨0x2B#6, false, 0#4 ++ BitVec.ofBool (bitOfTwo a), 0#4, 0#8, 0#40⟩ := rfl
  refine ⟨word, fun empty => ?empty, fun q i v held => ?last⟩
  case empty =>
    have done := exec_wbzerop_withQueue a [] s
    rwa [zeroEntriesBut_nil, withQueue_eq_self empty] at done
  case last =>
    have zeroed := exec_wbzerop_withQueue a (q ++ [(i, v)]) s
    rw [withQueue_eq_self held, zeroEntriesBut_snoc, ← held] at zeroed
    refine ⟨_, exec_wbzerop_withQueue a q s, fun spared => ?_, fun other => ?_⟩
    · rw [zeroed, if_pos ((windowOf_iff a i).mpr spared)]
      rfl
    · refine ⟨_, exec_regwr_respond i 0#16 _ _, ?_⟩
      rw [zeroed, if_neg ((windowOf_iff a i).not.mpr other), regWrite_withQueue]
      rfl

end Sys2Proof.Proofs
end

section
/-! PROOFS. The step, control-flow and host-read commands (rules R111 to R114, R118 and R120): the two branches of
`STEP`, the three of `LOOPEND`, and the one bit of `CR` that `CRRD` rewrites. -/

namespace Sys2Proof.Proofs

open Sys2Proof Sys2Proof.Machine Sys2Proof.Safety

/-! ### The step and the program counter -/

theorem exec_nop (s : State) : exec .nop s = .next (respond 0#40 s) := rfl
theorem exec_pcrd (s : State) : exec .pcrd s = .next (respond (s.pc.zeroExtend 40) s) := rfl
theorem exec_pcwr (t : Word) (s : State) : exec (.pcwr t) s = .next (respond 0#40 { s with pc := t }) := rfl

/-- The two branches of `STEP` (rule R112). -/
theorem exec_step_of_empty {s : State} (empty : s.wbq = []) (len : Word) :
    exec (.step len) s = .next (respond 0#40 { s with stepCnt := s.stepCnt + 1, pc := s.pc + len }) :=
  if_neg (by simp [empty])
theorem exec_step_of_pending {s : State} (pending : s.wbq ≠ []) (len : Word) :
    exec (.step len) s = .next (raiseFault .wbpending s) :=
  if_pos (List.length_pos_of_ne_nil pending)

/-- Settles O50: the command word is all zeros, and `respond` writes only the response ports. -/
theorem nopChangesNothing : Obligations.NopChangesNothing := by
  intro s
  have word : encode .nop = 0x0000000000000000#64 := by decide
  exact ⟨word, exec_nop s⟩

/-- Settles O51: the two branches of `STEP`. -/
theorem stepCountsAndAdvancesOrFaults : Obligations.StepCountsAndAdvancesOrFaults := by
  intro len s
  have word : encode (.step len) = wordOf ⟨0x30#6, false, 0#5, 0#4, 0#8, 0#24 ++ len⟩ := rfl
  refine ⟨word, fun empty => ?_, fun pending => ?_⟩
  · have wrapped : BitVec.ofNat 16 (s.pc.toNat + len.toNat) = s.pc + len := rfl
    rw [exec_step_of_empty empty, wrapped, respond]
  · rw [exec_step_of_pending pending, raiseFault, respond]

/-- Settles O53: the answer of `PCRD` is `PC` zero-extended. -/
theorem pcrdReadsAndPcwrWrites : Obligations.PcrdReadsAndPcwrWrites := by
  intro a s
  have readWord : encode .pcrd = wordOf ⟨0x32#6, false, 0#5, 0#4, 0#8, 0#40⟩ := rfl
  have writeWord : encode (.pcwr a) = wordOf ⟨0x33#6, false, 0#5, 0#4, 0#8, 0#24 ++ a⟩ := rfl
  refine ⟨readWord, ?_, writeWord, exec_pcwr a s⟩
  rw [exec_pcrd, respond, BitVec.zeroExtend, BitVec.ofNat_toNat]

/-! ### The end of a loop (rules R117 and R118) -/

theorem loopActive_iff (s : State) : loopActive s = true ↔
    (s.st.get .i2).top ≠ 0#16 ∧ (s.st.get .i3).top ≠ 0#16 ∧ s.pc - 1#16 = (s.st.get .i2).top := by
  simp only [loopActive, Bool.and_eq_true, bne_iff_ne, beq_iff_eq, and_assoc]

@[simp] theorem countLoop_counter (s : State) : ((countLoop s).st.get .i3).top = (s.st.get .i3).top - 1#16 := rfl

/-- A counter that has not run out goes down by one without wrapping. -/
theorem counter_pred {c : Word} (counting : 1 ≤ c.toNat) : c - 1#16 = BitVec.ofNat 16 (c.toNat - 1) := by
  bv_omega

/-- On a well-formed stack the pointer of rule R28 goes down by one modulo the depth. -/
theorem popStack_eq_popped {d : Nat} {k : Stack} (ok : StackOk d k) : popStack d k = popped d k := by
  obtain ⟨-, inside⟩ := ok
  rw [popStack, popped, pop_ptr_eq inside]

/-- The three pops of rule R118 act on three different stacks, and the decremented counter is among what they
discard. -/
theorem pop_countLoop {s : State} (ok : StacksOk s) :
    pop .i3 (pop .i2 (pop .i0 (countLoop s))) = { s with
      st := ⟨popped s.cfg.stackDepth (s.st.get .i0), s.st.get .i1, popped s.cfg.stackDepth (s.st.get .i2),
        popped s.cfg.stackDepth (s.st.get .i3)⟩ } := by
  rw [← popStack_eq_popped (ok .i0), ← popStack_eq_popped (ok .i2), ← popStack_eq_popped (ok .i3)]
  rfl

/-- The three branches of `LOOPEND`. -/
theorem exec_loopend_of_inactive {s : State} (inactive : ¬loopActive s = true) :
    exec .loopend s = .next (respond 0#40 s) :=
  if_neg inactive
theorem exec_loopend_of_more {s : State} (active : loopActive s = true) (more : (s.st.get .i3).top - 1#16 ≠ 0#16) :
    exec .loopend s = .next (respond 0#40 { countLoop s with pc := (s.st.get .i0).top }) :=
  (if_pos active).trans (if_pos more)
theorem exec_loopend_of_last {s : State} (active : loopActive s = true) (last : (s.st.get .i3).top = 1#16) :
    exec .loopend s = .next (respond 0#40 (pop .i3 (pop .i2 (pop .i0 (countLoop s))))) :=
  (if_pos active).trans (if_neg (by simp [last]))

/-- Settles O52: `loopActive_iff` tells the inert case; a counter of at least 2 is not 0 after `countLoop`, a counter
of 1 is. -/
theorem loopendRepeatsOrPops : Obligations.LoopendRepeatsOrPops := by
  intro s
  have word : encode .loopend = wordOf ⟨0x31#6, false, 0#5, 0#4, 0#8, 0#40⟩ := rfl
  refine ⟨word, fun inert => ?inert, fun looping atEnd counting => ?more, fun looping atEnd one ok => ?last⟩
  case inert =>
    exact exec_loopend_of_inactive ((loopActive_iff s).not.mpr inert)
  case more =>
    have counter : (s.st.get .i3).top ≠ 0#16 := by bv_omega
    have more : (s.st.get .i3).top - 1#16 ≠ 0#16 := by bv_omega
    rw [exec_loopend_of_more ((loopActive_iff s).mpr ⟨looping, counter, atEnd⟩) more, countLoop, respond,
      counter_pred (by omega)]
  case last =>
    have last : (s.st.get .i3).top = 1#16 := BitVec.eq_of_toNat_eq one
    have counter : (s.st.get .i3).top ≠ 0#16 := by simp [last]
    rw [exec_loopend_of_last ((loopActive_iff s).mpr ⟨looping, counter, atEnd⟩) last, pop_countLoop ok, respond]

/-! ### The host read of the control register (rule R120) -/

theorem exec_crrd (s : State) : exec .crrd s = .next (respond
    ((putBit s.cr s.cfg.crPctopStatusBit (s.pc.getLsbD 15)).zeroExtend 40)
    { s with cr := putBit s.cr s.cfg.crPctopStatusBit (s.pc.getLsbD 15) }) := rfl

/-- The mask of `putBit` has the one bit. -/
theorem bitMask_getLsbD {b : Nat} (inside : b < 16) (j : Nat) : (1#16 <<< b).getLsbD j = decide (j = b) := by
  rw [← BitVec.twoPow_eq, BitVec.getLsbD_twoPow]
  simp [inside, eq_comm]

theorem putBit_getLsbD {b : Nat} (inside : b < 16) (v : Word) (x : Bool) (j : Nat) :
    (putBit v b x).getLsbD j = if j = b then x else v.getLsbD j := by
  by_cases same : j = b
  case pos => cases x <;> simp [putBit, bitMask_getLsbD inside, same]
  case neg =>
    cases x with
    | true => simp [putBit, bitMask_getLsbD inside, same]
    | false => simpa [putBit, bitMask_getLsbD inside, same] using BitVec.lt_of_getLsbD

/-- U6: the status bit lies inside `CR`. -/
theorem crPctopStatusBit_lt {c : Config} (valid : c.valid = true) : c.crPctopStatusBit < 16 := by
  simp only [Config.valid, Config.bitPositionOk, Bool.and_eq_true, decide_eq_true_eq] at valid
  omega

/-- Settles O54: the value stored and answered is `putBit` at the status bit. -/
theorem crrdReflectsTheTopPcBit : Obligations.CrrdReflectsTheTopPcBit := by
  intro s
  have word : encode .crrd = wordOf ⟨0x34#6, false, 0#5, 0#4, 0#8, 0#40⟩ := rfl
  refine ⟨word, fun valid => ⟨putBit s.cr s.cfg.crPctopStatusBit (s.pc.getLsbD 15),
    putBit_getLsbD (crPctopStatusBit_lt valid) _ _, ?_⟩⟩
  rw [exec_crrd, respond, BitVec.zeroExtend, BitVec.ofNat_toNat]

end Sys2Proof.Proofs
end

section
/-! PROOFS. The register-access commands (rules R124 to R128): `REGRD` and `REGWR` register by register through the
generic accessors, and the saturating read of `REGRDS` as a clamped quotient. -/

namespace Sys2Proof.Proofs

open Sys2Proof Sys2Proof.Machine Sys2Proof.Safety

/-! ### The stacks behind the accessors

Both need the pointer inside the backing store, and nothing of the store itself. -/

/-- The pointer of rule R27 goes up by one modulo the depth. -/
theorem push_ptr_eq {d p : Nat} (inside : p < d) : (p + 1) % d = if p + 1 = d then 0 else p + 1 := by
  split_ifs with top
  · rw [top, Nat.mod_self]
  · exact Nat.mod_eq_of_lt (by omega)

theorem push_eq_pushed {k : Four} {s : State} (inside : (s.st.get k).ptr < s.cfg.stackDepth) (v : Word) :
    push k v s = { s with st := s.st.set k (pushed s.cfg.stackDepth v (s.st.get k)) } := by
  rw [push, pushStack, pushed, push_ptr_eq inside]

theorem pop_eq_popped {k : Four} {s : State} (inside : (s.st.get k).ptr < s.cfg.stackDepth) :
    pop k s = { s with st := s.st.set k (popped s.cfg.stackDepth (s.st.get k)) } := by
  rw [pop, popStack, popped, pop_ptr_eq inside]

/-! ### The plain accessors (rules R124 to R127) -/

/-- The answer of `REGRD` as a number, next to the side effect of the generic read accessor. -/
theorem exec_regrd_ofNat (i : Reg) (s : State) :
    exec (.regrd i) s =
      .next { afterRead i s with rspData := BitVec.ofNat 40 (regValue i s).toNat, rspCond := false } := by
  rw [exec_regrd, respond, BitVec.zeroExtend, BitVec.ofNat_toNat]

/-- A high window as the signed number of its low byte (rule R12). -/
theorem sext8_eq_ofInt (v : Word) : sext8 v = BitVec.ofInt 16 (s8 v) := by
  rw [sext8, BitVec.signExtend, lowByte_toInt]

/-- Settles O57: the answer is `regValue` by `exec_regrd_ofNat`; `afterRead` pops for a stack index and is the identity
for every other. -/
theorem regrdAnswersTheRegister : Obligations.RegrdAnswersTheRegister := by
  intro i s
  have word : encode (.regrd i) = wordOf ⟨0x20#6, false, indexOfReg i, 0#4, 0#8, 0#40⟩ := rfl
  refine ⟨word, ?_⟩
  cases i with
  | st k =>
    intro inside
    rw [exec_regrd_ofNat, afterRead, pop_eq_popped inside, regValue]
  | ar | ix | wr | ach | cr | sr | prodl | prodm | prodh | prodm2 | axl | axh | acl | acm =>
    exact exec_regrd_ofNat _ s

/-- Settles O58: `regWrite` pushes for a stack index, sign-extends the low byte for a high window, and stores the value
as it is for every other index. -/
theorem regwrWritesTheRegister : Obligations.RegwrWritesTheRegister := by
  intro i v s
  have word : encode (.regwr i v) = wordOf ⟨0x22#6, false, indexOfReg i, 0#4, 0#8, 0#24 ++ v⟩ := rfl
  refine ⟨word, ?_⟩
  cases i with
  | st k =>
    intro inside
    rw [exec_regwr, regWrite, push_eq_pushed inside, respond]
  | ach a =>
    rw [← sext8_eq_ofInt]
    exact exec_regwr _ v s
  | ar | ix | wr | cr | sr | prodl | prodm | prodh | prodm2 | axl | axh | acl | acm =>
    exact exec_regwr _ v s

/-! ### The saturating read (rule R128) -/

theorem exec_regrds (a : Two) (s : State) :
    exec (.regrds a) s = .next (respond ((saturatedMid (srSXM s.sr) (s.ac.get a)).zeroExtend 40) s) := rfl

theorem acc_long_toInt (x : Acc) : x.long.toInt = (accNat x : Int).bmod (2 ^ 40) := by
  rw [BitVec.toInt_eq_toNat_bmod, acc_long_toNat]

theorem fits32_iff (x : Long) : fits32 x = true ↔ -2 ^ 31 ≤ x.toInt ∧ x.toInt ≤ 2 ^ 31 - 1 := by
  rw [fits32, Bool.and_eq_true, decide_eq_true_iff, decide_eq_true_iff]

/-- A value that fits in 32 bits has its sign in the mid window. -/
theorem mid_toInt_of_fits32 {x : Acc} (fits : fits32 x.long = true) : x.m.toInt = x.long.toInt / 2 ^ 16 := by
  obtain ⟨low, high⟩ := (fits32_iff x.long).mp fits
  have mid := x.m.isLt
  have bottom := x.l.isLt
  have signed := BitVec.toInt_eq_toNat_cond x.m
  rw [acc_long_toInt, accNat, Int.bmod_def] at low high ⊢
  omega

/-- The three values of the saturating read: the mid window raw, in range, or the end of the 16-bit range on the side
of the value's sign. -/
theorem saturatedMid_off (x : Acc) : saturatedMid false x = x.m := rfl
theorem saturatedMid_of_fits32 {x : Acc} (fits : fits32 x.long = true) : saturatedMid true x = x.m := by
  simp [saturatedMid, fits]
theorem saturatedMid_of_not_fits32 {x : Acc} (beyond : ¬fits32 x.long = true) :
    saturatedMid true x = if x.long.toInt < 0 then 0x8000#16 else 0x7FFF#16 := by
  simp [saturatedMid, beyond]

/-- A value beyond 32 bits is one whose quotient by 2^16 the clamp moves. -/
theorem saturatedMid_toInt (x : Acc) :
    (saturatedMid true x).toInt = max (-0x8000) (min 0x7FFF (x.long.toInt / 2 ^ 16)) := by
  by_cases fits : fits32 x.long = true
  case pos =>
    rw [saturatedMid_of_fits32 fits, mid_toInt_of_fits32 fits]
    have range := (fits32_iff x.long).mp fits
    omega
  case neg =>
    have range := (fits32_iff x.long).not.mp fits
    rw [saturatedMid_of_not_fits32 fits]
    split_ifs with negative
    · have bottom : (0x8000#16).toInt = -0x8000 := by decide
      omega
    · have top : (0x7FFF#16).toInt = 0x7FFF := by decide
      omega

/-- Settles O60: the answer is `saturatedMid`, which is the mid window with `SXM` off and the clamped quotient by
`saturatedMid_toInt` with it on. -/
theorem regrdsSaturatesTheMidWindow : Obligations.RegrdsSaturatesTheMidWindow := by
  intro a s
  have word : encode (.regrds a) =
      wordOf ⟨0x21#6, false, 0#4 ++ BitVec.ofBool (bitOfTwo a), 0#4, 0#8, 0#40⟩ := rfl
  refine ⟨word, saturatedMid (srSXM s.sr) (s.ac.get a), ?run, fun raw => ?raw, fun saturating => ?saturating⟩
  case run => rw [exec_regrds, respond, BitVec.zeroExtend, BitVec.ofNat_toNat]
  case raw => rw [srSXM, raw, saturatedMid_off]
  case saturating => rw [srSXM, saturating, saturatedMid_toInt, acc_long_toInt]

end Sys2Proof.Proofs
end

section
/-! PROOFS. The decoder and the encoder against the opcode table (rules R50 to R59 and R90): a word decodes exactly
when it lies in a row of the table, and the operands of the row are the bits that the row's mask leaves free. -/

namespace Sys2Proof.Proofs

open Sys2Proof Sys2Proof.Safety Sys2Proof.Laws

/-! ### The rows of the opcode table -/

/-- The word lies in the command's row: its `match` under its `mask` (rule R58). -/
def InRow (o : Opcode) (w : BitVec 64) : Prop := w &&& (tableRow o).2 = (tableRow o).1

/-- The decoder's checks of rule R59, on the fields of a word. -/
structure Accepts (o : Opcode) (c : Fields) : Prop where
  op : c.op = codeOf o
  z : c.z = 0#8
  fits : (formatOf o).fits c = true

theorem wordOf_inj {a b : Fields} : wordOf a = wordOf b ↔ a = b :=
  ⟨fun same => by rw [← fieldsOf_wordOf a, same, fieldsOf_wordOf], congrArg wordOf⟩

theorem fits_iff (m : Format) (c : Fields) : m.fits c = true ↔
    (c.q && !m.q) = false ∧ c.r &&& ~~~m.r = 0#5 ∧ c.f &&& ~~~m.f = 0#4 ∧ c.d &&& ~~~m.d = 0#40 := by
  have qFits : (m.q || !c.q) = true ↔ (c.q && !m.q) = false := by
    cases m.q <;> cases c.q <;> decide
  rw [Format.fits, Bool.and_eq_true, Bool.and_eq_true, Bool.and_eq_true, qFits, decide_eq_true_iff,
    decide_eq_true_iff, decide_eq_true_iff, and_assoc, and_assoc]

/-- The mask covers what the decoder checks and nothing else. -/
theorem inRow_iff (o : Opcode) (w : BitVec 64) : InRow o w ↔ Accepts o (fieldsOf w) := by
  have masks (c : Fields) : InRow o (wordOf c) ↔ Accepts o c := by
    rw [InRow, tableRow_mask, tableRow_match, wordOf_and, wordOf_inj, Fields.mk.injEq,
      show c.op &&& 0x3F#6 = c.op from BitVec.and_allOnes, show c.z &&& 0xFF#8 = c.z from BitVec.and_allOnes]
    exact ⟨fun ⟨op, q, r, f, z, d⟩ => ⟨op, z, (fits_iff _ c).mpr ⟨q, r, f, d⟩⟩,
      fun ⟨op, z, fits⟩ => let ⟨q, r, f, d⟩ := (fits_iff _ c).mp fits; ⟨op, q, r, f, z, d⟩⟩
  rw [← masks, wordOf_fieldsOf]

/-! ### The decoder by rows -/

theorem decode_of_inRow {o : Opcode} {w : BitVec 64} (row : InRow o w) : decode w = commandOf o (fieldsOf w) := by
  obtain ⟨op, z, fits⟩ := (inRow_iff o w).mp row
  simp [decode, op, opcodeOf_codeOf, z, fits]

theorem inRow_of_decode {w : BitVec 64} {i : Instr} (decoded : decode w = .ok i) : ∃ o, InRow o w := by
  unfold decode at decoded
  dsimp only at decoded
  split at decoded
  case h_1 => cases decoded
  case h_2 o assigned =>
    split_ifs at decoded with z fits
    exact ⟨o, (inRow_iff o w).mpr ⟨(codeOf_of_opcodeOf assigned).symm, not_not.mp z, by simpa using fits⟩⟩

/-! ### From a command to its word and back -/

/-- Every command's word lies in the command's own row. -/
theorem encode_inRow (i : Instr) : InRow (opOf i) (encode i) := by
  cases i with
  | nop => exact EncodeInTableRow.nop.1
  | arinc n q => exact (EncodeInTableRow.arinc n q).1
  | ardec n q => exact (EncodeInTableRow.ardec n q).1
  | araddix n q => exact (EncodeInTableRow.araddix n q).1
  | arsubix n q => exact (EncodeInTableRow.arsubix n q).1
  | accget a => exact (EncodeInTableRow.accget a).1
  | accset a v => exact (EncodeInTableRow.accset a v).1
  | cext i => exact (EncodeInTableRow.cext i).1
  | prodget => exact EncodeInTableRow.prodget.1
  | prodgetr => exact EncodeInTableRow.prodgetr.1
  | prodset v => exact (EncodeInTableRow.prodset v).1
  | mul m w a b => exact (EncodeInTableRow.mul m w a b).1
  | mac m w a b => exact (EncodeInTableRow.mac m w a b).1
  | msub m w a b => exact (EncodeInTableRow.msub m w a b).1
  | mulx sa sb w => exact (EncodeInTableRow.mulx sa sb w).1
  | sr16 x c o f => exact (EncodeInTableRow.sr16 x c o f).1
  | sr64 x c o => exact (EncodeInTableRow.sr64 x c o).1
  | srlz b => exact (EncodeInTableRow.srlz b).1
  | cond cc => exact (EncodeInTableRow.cond cc).1
  | regrd i => exact (EncodeInTableRow.regrd i).1
  | regrds a => exact (EncodeInTableRow.regrds a).1
  | regwr i v => exact (EncodeInTableRow.regwr i v).1
  | wbappend i v => exact (EncodeInTableRow.wbappend i v).1
  | wbflush => exact EncodeInTableRow.wbflush.1
  | wbzero => exact EncodeInTableRow.wbzero.1
  | wbzerop a => exact (EncodeInTableRow.wbzerop a).1
  | step len => exact (EncodeInTableRow.step len).1
  | loopend => exact EncodeInTableRow.loopend.1
  | pcrd => exact EncodeInTableRow.pcrd.1
  | pcwr t => exact (EncodeInTableRow.pcwr t).1
  | crrd => exact EncodeInTableRow.crrd.1
  | crwr v => exact (EncodeInTableRow.crwr v).1

/-! #### Operands read back from the field that holds them (rules R54, R55 and R57) -/

/-- The low part of a joined field. -/
theorem low_append {n m : Nat} (x : BitVec n) (y : BitVec m) : (x ++ y).extractLsb' 0 m = y :=
  BitVec.extractLsb'_append_eq_right

theorem accField_getLsbD (a : Two) : (accField a).getLsbD 0 = bitOfTwo a := by cases a <;> rfl

theorem lo16_dataField (v : Word) : (dataField v).extractLsb' 0 16 = v := low_append 0#24 v

theorem hi16_operands (a b : Word) : (0#8 ++ b ++ a).extractLsb' 16 16 = b := by
  apply BitVec.eq_of_getLsbD_eq
  intro j inside
  rw [BitVec.getLsbD_extractLsb', BitVec.getLsbD_append, BitVec.getLsbD_append]
  simp [inside]

/-- The operands of a multiplier word. -/
theorem mulForm_mulFields (o : Opcode) (mk : MulMode → Bool → Word → Word → Instr) (m : MulMode) (w : Bool)
    (a b : Word) : mulForm (mulFields o m w a b) mk = .ok (mk m w a b) := by
  simp only [mulForm, mulFields, Fields.lo16, Fields.hi16, low_append, modeOfBits_bitsOfMode, hi16_operands]

/-- The bits of a field joined bit by bit, from the last one up. -/
theorem bit_zero_append {n : Nat} (x : BitVec n) (b : Bool) : (x ++ BitVec.ofBool b).getLsbD 0 = b := by
  simp only [BitVec.getLsbD_append, BitVec.getLsbD_ofBool]
  simp
theorem bit_succ_append {n : Nat} (x : BitVec n) (b : Bool) (j : Nat) :
    (x ++ BitVec.ofBool b).getLsbD (j + 1) = x.getLsbD j := by
  simp [BitVec.getLsbD_append]

/-- The fields a command is encoded with name the command again. -/
theorem commandOf_encodeFields (i : Instr) : commandOf (opOf i) (encodeFields i) = .ok i := by
  cases i with
  | nop | prodget | prodgetr | prodset | wbflush | wbzero | loopend | pcrd | crrd => rfl
  | arinc n | ardec n | araddix n | arsubix n =>
    simp only [commandOf, opOf, encodeFields, arFields, Fields.n, low_append, fourOfBits_bitsOfFour]
  | accget a | accset a | regrds a | wbzerop a =>
    simp only [commandOf, opOf, encodeFields, plainFields, Fields.a, accField_getLsbD, twoOfBit_bitOfTwo]
  | cext | regrd => simp only [commandOf, opOf, encodeFields, plainFields, Fields.reg, regOfIndex_indexOfReg]
  | mul | mac | msub => exact mulForm_mulFields _ _ _ _ _ _
  | mulx | sr64 | srlz =>
    simp only [commandOf, opOf, encodeFields, flagFields, bit_zero_append, bit_succ_append]
  | sr16 =>
    simp only [commandOf, opOf, encodeFields, flagFields, Fields.lo16, lo16_dataField, bit_zero_append,
      bit_succ_append]
  | cond cc => simp only [commandOf, opOf, encodeFields, flagFields, condOfBits_bitsOfCond]
  | regwr | wbappend =>
    simp only [commandOf, opOf, encodeFields, plainFields, Fields.reg, Fields.lo16, regOfIndex_indexOfReg,
      lo16_dataField]
  | step | pcwr | crwr => simp only [commandOf, opOf, encodeFields, plainFields, Fields.lo16, lo16_dataField]

/-- Settles O1: the command's word lies in the command's row, and the row reads the operands back. -/
theorem decodeOfEncodeIsTheCommand : Obligations.DecodeOfEncodeIsTheCommand := by
  intro i
  rw [decode_of_inRow (encode_inRow i), fieldsOf_encode, commandOf_encodeFields]

/-! ### From a word to its command and back -/

/-! #### A field whose bits outside the format are 0, joined from its operands -/

theorem r_four : ∀ r : BitVec 5, r &&& ~~~0b00011#5 = 0#5 → 0#3 ++ bitsOfFour (fourOfBits (r.extractLsb' 0 2)) = r := by
  decide
theorem r_mode : ∀ r : BitVec 5, r &&& ~~~0b00011#5 = 0#5 → 0#3 ++ r.extractLsb' 0 2 = r := by decide
theorem r_selectors : ∀ r : BitVec 5, r &&& ~~~0b00011#5 = 0#5 →
    0#3 ++ BitVec.ofBool (r.getLsbD 1) ++ BitVec.ofBool (r.getLsbD 0) = r := by decide
theorem r_two : ∀ r : BitVec 5, r &&& ~~~0b00001#5 = 0#5 → accField (twoOfBit (r.getLsbD 0)) = r := by decide
theorem f_three : ∀ f : BitVec 4, f &&& ~~~0b0111#4 = 0#4 →
    0#1 ++ BitVec.ofBool (f.getLsbD 2) ++ BitVec.ofBool (f.getLsbD 1) ++ BitVec.ofBool (f.getLsbD 0) = f := by decide
theorem f_two : ∀ f : BitVec 4, f &&& ~~~0b0011#4 = 0#4 →
    0#2 ++ BitVec.ofBool (f.getLsbD 1) ++ BitVec.ofBool (f.getLsbD 0) = f := by decide
theorem f_one : ∀ f : BitVec 4, f &&& ~~~0b0001#4 = 0#4 → 0#3 ++ BitVec.ofBool (f.getLsbD 0) = f := by decide

/-- A field none of whose bits is used. -/
theorem unused_field {n : Nat} {x : BitVec n} (unused : x &&& ~~~0#n = 0#n) : x = 0#n := by
  rwa [BitVec.not_zero, BitVec.and_allOnes] at unused

/-- A data field with nothing above its low part. -/
theorem low_only {n m : Nat} {x : BitVec (n + m)} (upper : x &&& ~~~(0#n ++ BitVec.allOnes m) = 0#(n + m)) :
    0#n ++ x.extractLsb' 0 m = x := by
  apply BitVec.eq_of_getLsbD_eq
  intro j inside
  have clear := congrArg (BitVec.getLsbD · j) upper
  simp only [BitVec.getLsbD_and, BitVec.getLsbD_not, BitVec.getLsbD_append, BitVec.getLsbD_extractLsb',
    BitVec.getLsbD_zero, BitVec.getLsbD_allOnes] at clear ⊢
  by_cases low : j < m
  · simp [low]
  · simpa [low, inside] using clear.symm

theorem d_word {d : BitVec 40} (upper : d &&& ~~~0xFFFF#40 = 0#40) : dataField (d.extractLsb' 0 16) = d :=
  low_only (n := 24) (m := 16) upper

theorem d_words {d : BitVec 40} (upper : d &&& ~~~0xFFFFFFFF#40 = 0#40) :
    0#8 ++ d.extractLsb' 16 16 ++ d.extractLsb' 0 16 = d := by
  have parts : d.extractLsb' 16 16 ++ d.extractLsb' 0 16 = d.extractLsb' 0 32 :=
    BitVec.extractLsb'_append_extractLsb'_eq_extractLsb' rfl
  have joined := low_only (n := 8) (m := 32) upper
  rw [← parts] at joined
  rw [BitVec.append_assoc]
  exact joined

/-- An accepted multiplier word has one of the three modes (rule R90). -/
theorem mulForm_ok {c : Fields} {mk : MulMode → Bool → Word → Word → Instr} {i : Instr}
    (command : mulForm c mk = .ok i) :
    ∃ m, bitsOfMode m = c.r.extractLsb' 0 2 ∧ i = mk m c.q c.lo16 c.hi16 := by
  unfold mulForm at command
  split at command
  case h_1 m mode => exact ⟨m, bitsOfMode_of_modeOfBits _ _ mode, (Except.ok.inj command).symm⟩
  case h_2 => cases command

theorem q_unused {q : Bool} (unused : (q && !false) = false) : q = false := by
  rwa [Bool.not_false, Bool.and_true] at unused

/-- The fields of a word that its row accepts are those its command is encoded with: by format, each field is the join
of its operands, or unused and 0. -/
theorem encodeFields_of_commandOf {o : Opcode} {c : Fields} {i : Instr} (accepts : Accepts o c)
    (command : commandOf o c = .ok i) : encodeFields i = c := by
  obtain ⟨op, q, r, f, z, d⟩ := c
  obtain ⟨op_eq, z_eq, fits⟩ := accepts
  obtain ⟨qFits, rFits, fFits, dFits⟩ := (fits_iff _ _).mp fits
  dsimp only at op_eq z_eq qFits rFits fFits dFits
  subst op_eq z_eq
  cases o with
  | nop | prodget | prodgetr | wbflush | wbzero | loopend | pcrd | crrd =>
    obtain rfl := Except.ok.inj command
    simp only [encodeFields, plainFields, q_unused qFits, unused_field rFits, unused_field fFits, unused_field dFits]
  | arinc | ardec | araddix | arsubix =>
    obtain rfl := Except.ok.inj command
    simp only [encodeFields, arFields, Fields.n, r_four r rFits, unused_field fFits, unused_field dFits]
  | accget | regrds | wbzerop =>
    obtain rfl := Except.ok.inj command
    simp only [encodeFields, plainFields, Fields.a, q_unused qFits, r_two r rFits, unused_field fFits,
      unused_field dFits]
  | accset =>
    obtain rfl := Except.ok.inj command
    simp only [encodeFields, plainFields, Fields.a, q_unused qFits, r_two r rFits, unused_field fFits]
  | cext | regrd =>
    obtain rfl := Except.ok.inj command
    simp only [encodeFields, plainFields, Fields.reg, q_unused qFits, indexOfReg_regOfIndex, unused_field fFits,
      unused_field dFits]
  | regwr | wbappend =>
    obtain rfl := Except.ok.inj command
    simp only [encodeFields, plainFields, Fields.reg, Fields.lo16, q_unused qFits, indexOfReg_regOfIndex,
      unused_field fFits, d_word dFits]
  | prodset =>
    obtain rfl := Except.ok.inj command
    simp only [encodeFields, plainFields, q_unused qFits, unused_field rFits, unused_field fFits]
  | step | pcwr | crwr =>
    obtain rfl := Except.ok.inj command
    simp only [encodeFields, plainFields, Fields.lo16, q_unused qFits, unused_field rFits, unused_field fFits,
      d_word dFits]
  | mul | mac | msub =>
    obtain ⟨m, mode, rfl⟩ := mulForm_ok command
    simp only [encodeFields, mulFields, Fields.lo16, Fields.hi16, mode, r_mode r rFits, unused_field fFits,
      d_words dFits]
  | mulx =>
    obtain rfl := Except.ok.inj command
    simp only [encodeFields, r_selectors r rFits, unused_field fFits, unused_field dFits]
  | sr16 =>
    obtain rfl := Except.ok.inj command
    simp only [encodeFields, flagFields, Fields.lo16, q_unused qFits, unused_field rFits, f_three f fFits, d_word dFits]
  | sr64 =>
    obtain rfl := Except.ok.inj command
    simp only [encodeFields, flagFields, q_unused qFits, unused_field rFits, f_two f fFits]
  | srlz =>
    obtain rfl := Except.ok.inj command
    simp only [encodeFields, flagFields, q_unused qFits, unused_field rFits, f_one f fFits, unused_field dFits]
  | cond =>
    obtain rfl := Except.ok.inj command
    simp only [encodeFields, flagFields, q_unused qFits, unused_field rFits, bitsOfCond_condOfBits, unused_field dFits]

/-- Settles O2: the word's row accepts its fields, so they are the fields of its command. -/
theorem encodeOfDecodeIsTheWord : Obligations.EncodeOfDecodeIsTheWord := by
  intro w i decoded
  obtain ⟨o, row⟩ := inRow_of_decode decoded
  rw [decode_of_inRow row] at decoded
  rw [encode, encodeFields_of_commandOf ((inRow_iff o w).mp row) decoded, wordOf_fieldsOf]

/-! ### The reserved words -/

theorem modeOfBits_eq_none_iff : ∀ b : BitVec 2, modeOfBits b = none ↔ b = 3#2 := by decide

theorem modeField_eq (w : BitVec 64) : (fieldsOf w).r.extractLsb' 0 2 = w.extractLsb' 52 2 := by
  apply BitVec.eq_of_getLsbD_eq
  intro j inside
  simp only [fieldsOf, BitVec.getLsbD_extractLsb']
  simp [inside, show j < 5 by omega]

theorem mulForm_error_iff (c : Fields) (mk : MulMode → Bool → Word → Word → Instr) :
    (∃ e, mulForm c mk = .error e) ↔ c.r.extractLsb' 0 2 = 3#2 := by
  rw [← modeOfBits_eq_none_iff, mulForm]
  cases modeOfBits (c.r.extractLsb' 0 2) with
  | none => exact iff_of_true ⟨_, rfl⟩ rfl
  | some m => exact iff_of_false (fun ⟨_, refused⟩ => by cases refused) (Option.some_ne_none m)

/-- Inside a row the one refused word is that of mode 3 (rule R90). -/
theorem commandOf_error_iff (o : Opcode) (w : BitVec 64) :
    (∃ e, commandOf o (fieldsOf w) = .error e) ↔ rowConstraint o w = false := by
  cases o with
  | mul | mac | msub =>
    refine (mulForm_error_iff _ _).trans ?_
    rw [modeField_eq, rowConstraint, decide_eq_false_iff_not, not_not]
  | _ => exact iff_of_false (fun ⟨_, refused⟩ => by cases refused) Bool.true_eq_false.mp

/-- Settles O3: outside the rows nothing decodes, and inside a row only mode 3 is refused. -/
theorem decoderRefusesExactlyReservedWords : Obligations.DecoderRefusesExactlyReservedWords := by
  intro w
  constructor
  · intro refused o row
    rw [decode_of_inRow row] at refused
    exact (commandOf_error_iff o w).mp refused
  · intro reserved
    cases decoded : decode w with
    | error e => exact ⟨e, rfl⟩
    | ok i =>
      obtain ⟨o, row⟩ := inRow_of_decode decoded
      have refused := (commandOf_error_iff o w).mpr (reserved o row)
      rwa [← decode_of_inRow row, decoded] at refused

end Sys2Proof.Proofs
end

section
/-! PROOFS. The command port (rules R134, R138, R146 and R156): what one clock does, an equation for each case of the
input list and of the presented word; and the values after a reset (rules R36 and R147). -/

namespace Sys2Proof.Proofs

open Sys2Proof Sys2Proof.Machine Sys2Proof.Safety

/-! ### One clock, by what the input ports present -/

theorem step_of_end {s : State} (valid : s.cfg.valid = true) (done : s.inputs = []) : step s = .next s := by
  simp [step, clock, valid, done]

section
variable {s : State} {c : InputClock} {rest : List InputClock}

theorem step_of_reset (valid : s.cfg.valid = true) (seen : s.inputs = c :: rest) (rst : c.rst = true) :
    step s = .next (performReset (seeClock c rest s)) := by
  simp [step, clock, valid, seen, rst]

theorem step_of_idle (valid : s.cfg.valid = true) (seen : s.inputs = c :: rest) (rst : c.rst = false)
    (idle : c.cmdValid = false) : step s = .next (seeClock c rest s) := by
  simp [step, clock, valid, seen, rst, idle]

theorem step_of_word (valid : s.cfg.valid = true) (seen : s.inputs = c :: rest) (rst : c.rst = false)
    (presented : c.cmdValid = true) : step s = runWord c.cmd (seeClock c rest s) := by
  simp [step, clock, valid, seen, rst, presented]

end

/-! ### A presented word, in the order of the checks of rule R138 -/

theorem resettingWord_of_decode {w : BitVec 64} {i : Instr} (decoded : decode w = .ok i) :
    resettingWord w = resets i := by
  rw [resettingWord, decoded]
  cases i <;> rfl

theorem runWord_of_faulted {w : BitVec 64} {s : State} (fault : faulted s = true)
    (plain : resettingWord w = false) : runWord w s = .next (ignoreCommand s) := by
  simp [runWord, fault, plain]

theorem runWord_of_reserved {w : BitVec 64} {s : State} {e : Reserved} (unfaulted : faulted s = false)
    (refused : decode w = .error e) : runWord w s = .next (badCommand s) := by
  simp [runWord, unfaulted, refused]

theorem runWord_of_command {w : BitVec 64} {s : State} {i : Instr} (decoded : decode w = .ok i)
    (accepted : faulted s = false ∨ resets i = true) : runWord w s = exec i s := by
  rw [← resettingWord_of_decode decoded] at accepted
  have gate : (faulted s && !resettingWord w) = false := by
    rcases accepted with unfaulted | resetting
    · rw [unfaulted, Bool.false_and]
    · rw [resetting, Bool.not_true, Bool.and_false]
  rw [runWord, gate, decoded]
  rfl

/-- Settles O5: the word passes the gate of rule R138 at the state in which the clock is seen. -/
theorem stepRunsThePresentedCommand : Obligations.StepRunsThePresentedCommand := by
  intro s c rest i valid seen rst presented decoded accepted
  rw [step_of_word valid seen rst presented]
  exact runWord_of_command decoded accepted

/-- Settles O6: the decoder refuses a reserved word by `decoderRefusesExactlyReservedWords`, and `badCommand` writes
the warning and the response. -/
theorem reservedWordOnlySetsTheWarning : Obligations.ReservedWordOnlySetsTheWarning := by
  intro s c rest valid seen rst presented unfaulted reserved
  obtain ⟨e, refused⟩ := (decoderRefusesExactlyReservedWords c.cmd).mpr reserved
  rw [step_of_word valid seen rst presented]
  exact runWord_of_reserved unfaulted refused

/-- Settles O7: a word that is no resetting `CRWR` stops at the gate, and `ignoreCommand` writes only the response. -/
theorem faultedBlockIgnoresCommands : Obligations.FaultedBlockIgnoresCommands := by
  intro s c rest valid seen rst presented fault noReset
  have gated : faulted (seeClock c rest s) = true := by
    rwa [faulted, Bool.or_eq_true]
  have plain : resettingWord c.cmd = false := by
    rw [← Bool.not_eq_true, resettingWord_iff]
    rintro ⟨v, decoded, resetting⟩
    exact absurd resetting (by rw [noReset v decoded]; decide)
  rw [step_of_word valid seen rst presented]
  exact runWord_of_faulted gated plain

/-- Settles O8: the two cases of the clock that run no word. -/
theorem clockWithoutCommandChangesNothing : Obligations.ClockWithoutCommandChangesNothing := fun _ valid =>
  ⟨step_of_end valid, fun _ _ seen rst idle => step_of_idle valid seen rst idle⟩

/-! ### Reset -/

/-- Settles O9: `performReset` at the state in which the clock is seen, which has that clock's level of
`cfg_precise` and the open parameters of the state before. -/
theorem resetInputGivesTheResetValues : Obligations.ResetInputGivesTheResetValues := by
  intro s c rest valid seen rst
  have values := performReset_values (seeClock c rest s)
  exact ⟨_, step_of_reset valid seen rst, { values with }, rfl⟩

/-- The high windows of `State.reset` hold the fill's low byte, sign-extended. -/
theorem reset_highs (a : Two) : HighOk (State.reset.ac.get a).h := by
  have stored : (State.reset.ac.get a).h = sext8 Config.resetFill := by cases a <;> rfl
  rw [stored]
  exact sext8_high _

theorem reset_stack (k : Four) : (State.reset.st.get k).ptr = 0 ∧
    (State.reset.st.get k).mem.length = State.reset.cfg.stackDepth := by
  cases k <;> exact ⟨rfl, rfl⟩

/-- Settles O10: each value as `State.reset` lists it. -/
theorem resetStateHasTheStatedValues : Obligations.ResetStateHasTheStatedValues :=
  ⟨rfl, rfl, rfl, reset_stack, rfl, rfl, rfl, rfl, reset_highs⟩

/-- Settles O11: the queue is empty and no fault bit is set, so only the shapes of the windows and stacks remain. -/
theorem resetStateMeetsTheInvariant : Obligations.ResetStateMeetsTheInvariant where
  config := by decide
  highs := reset_highs
  stackShape k := ⟨(reset_stack k).2, by rw [(reset_stack k).1]; decide⟩
  queueBound := Nat.zero_le _
  overflowFull := Bool.false_ne_true.elim
  pendingKept := Bool.false_ne_true.elim
  oneFault both := Bool.false_ne_true both.1

/-! ### The host write of the control register (rules R121 and R147) -/

section
variable {v : Word} {s : State}

theorem exec_crwr_of_reset (resetting : v.getLsbD 0 = true) : exec (.crwr v) s =
    .next (respond 0#40 { performReset s with cr := v &&& ~~~0x0001#16 }) := if_pos resetting
theorem exec_crwr_of_init (plain : v.getLsbD 0 = false) (init : v = s.cfg.crInitValue) : exec (.crwr v) s =
    .next (respond 0#40 { s with initHint := true, cr := v ||| (1#16 <<< s.cfg.crInitStatusBit) }) :=
  (if_neg (by rw [plain]; decide)).trans (if_pos init)
theorem exec_crwr_of_store (plain : v.getLsbD 0 = false) (other : v ≠ s.cfg.crInitValue) : exec (.crwr v) s =
    .next (respond 0#40 { s with cr := v }) :=
  (if_neg (by rw [plain]; decide)).trans (if_neg other)

end

/-- Clearing a bit 0 that is set takes 1 off. -/
theorem clear_bit_zero {v : Word} (set : v.getLsbD 0 = true) : (v &&& ~~~0x0001#16).toNat = v.toNat - 1 := by
  have mask : ~~~0x0001#16 = BitVec.allOnes 16 <<< 1 := by decide
  have odd : v.toNat % 2 = 1 := by simpa [BitVec.getLsbD, Nat.testBit_zero] using set
  have bound := v.isLt
  rw [mask, ← BitVec.shiftLeft_ushiftRight, BitVec.toNat_shiftLeft, BitVec.toNat_ushiftRight, Nat.shiftLeft_eq,
    Nat.shiftRight_eq_div_pow]
  omega

/-- The status bit ORed into an init write, wherever the parameter puts it. -/
theorem or_bit_getLsbD (v : Word) (b j : Nat) :
    (v ||| (1#16 <<< b)).getLsbD j = (v.getLsbD j || decide (j = b ∧ j < 16)) := by
  have bit : (b < 16 ∧ b = j) ↔ (j = b ∧ j < 16) := by omega
  rw [BitVec.getLsbD_or, ← BitVec.twoPow_eq, BitVec.getLsbD_twoPow, ← Bool.decide_and, decide_eq_decide.mpr bit]

/-- Settles O55: the three equations of `CRWR`; the reset of the first is `performReset`, with `CR` stored after it. -/
theorem crwrResetsInitialisesOrStores : Obligations.CrwrResetsInitialisesOrStores := by
  intro v s
  have word : encode (.crwr v) = wordOf ⟨0x35#6, false, 0#5, 0#4, 0#8, 0#24 ++ v⟩ := rfl
  refine ⟨word, fun resetting => ?reset, fun plain init => ?init, fun plain other => exec_crwr_of_store plain other⟩
  case reset =>
    have values := performReset_values s
    exact ⟨_, exec_crwr_of_reset resetting, { values with }, clear_bit_zero resetting, rfl, rfl, rfl⟩
  case init => exact ⟨_, or_bit_getLsbD v s.cfg.crInitStatusBit, exec_crwr_of_init plain init⟩

/-- U6: the halt bit lies inside `CR`. -/
theorem crHaltBit_lt {c : Config} (valid : c.valid = true) : c.crHaltBit < 16 := by
  simp only [Config.valid, Config.bitPositionOk, Bool.and_eq_true, decide_eq_true_eq] at valid
  omega

/-- Settles O56: both commands store the value, the init write with the status bit, which `or_bit_getLsbD` reads at the
halt bit. -/
theorem haltFollowsTheControlRegister : Obligations.HaltFollowsTheControlRegister := by
  intro v s valid plain
  by_cases init : v = s.cfg.crInitValue
  · refine ⟨_, _, exec_regwr .cr v s, exec_crwr_of_init plain init, rfl, ?_⟩
    change (v ||| (1#16 <<< s.cfg.crInitStatusBit)).getLsbD s.cfg.crHaltBit = true ↔ _
    rw [or_bit_getLsbD, Bool.or_eq_true, decide_eq_true_iff]
    exact or_congr_right ⟨fun ⟨same, _⟩ => ⟨init, same⟩, fun ⟨_, same⟩ => ⟨same, crHaltBit_lt valid⟩⟩
  · refine ⟨_, _, exec_regwr .cr v s, exec_crwr_of_store plain init, rfl, ?_⟩
    exact ⟨.inl, fun either => either.resolve_right fun both => init both.1⟩

end Sys2Proof.Proofs
end

section
/-! PROOFS. What a command can change beside the registers it names: the bookkeeping of the block, its shape, and `SR`.
Each is said once over all commands, and the rules about every step are read off from it. -/

namespace Sys2Proof.Proofs

open Sys2Proof Sys2Proof.Machine Sys2Proof.Safety

/-! ### The ends of the commands that branch -/

/-- The two ends of an append to the queue (rules R100 and R135). -/
theorem queueWrite_cases (i : Reg) (v : Word) (rsp : Long) (s : State) :
    (s.wbq.length ≠ s.cfg.wbCapacity ∧ queueWrite i v rsp s = respond rsp { s with wbq := s.wbq ++ [(i, v)] }) ∨
    (s.wbq.length = s.cfg.wbCapacity ∧ queueWrite i v rsp s = raiseFault .wbovf s) := by
  by_cases full : s.wbq.length = s.cfg.wbCapacity
  · exact .inr ⟨full, queueWrite_of_full full⟩
  · exact .inl ⟨full, queueWrite_of_room full⟩

/-- The two ends of `CEXT` (rule R77). -/
theorem exec_cext_cases {i : Reg} {s t : State} (run : exec (.cext i) s = .next t) :
    t = respond 0#40 s ∨ ∃ a, t = respond 0#40 { s with ac := s.ac.set a (extendMid (s.ac.get a)) } := by
  by_cases idle : s.sr.getLsbD 14 = false ∨ ∀ a, i ≠ .acm a
  · rw [exec_cext_idle idle] at run
    exact .inl (Host.Outcome.next.inj run).symm
  · push Not at idle
    obtain ⟨sxm, a, rfl⟩ := idle
    rw [exec_cext_extends a (Bool.eq_true_of_not_eq_false sxm)] at run
    exact .inr ⟨a, (Host.Outcome.next.inj run).symm⟩

/-- The two ends of `STEP` (rule R112). -/
theorem exec_step_cases {len : Word} {s t : State} (run : exec (.step len) s = .next t) :
    t = respond 0#40 { s with stepCnt := s.stepCnt + 1, pc := s.pc + len } ∨
      s.wbq ≠ [] ∧ t = raiseFault .wbpending s := by
  by_cases empty : s.wbq = []
  · rw [exec_step_of_empty empty] at run
    exact .inl (Host.Outcome.next.inj run).symm
  · rw [exec_step_of_pending empty] at run
    exact .inr ⟨empty, (Host.Outcome.next.inj run).symm⟩

/-- The three ends of `LOOPEND` (rule R118). -/
theorem exec_loopend_cases {s t : State} (run : exec .loopend s = .next t) :
    t = respond 0#40 s ∨ t = respond 0#40 { countLoop s with pc := (s.st.get .i0).top } ∨
      t = respond 0#40 (pop .i3 (pop .i2 (pop .i0 (countLoop s)))) := by
  by_cases active : loopActive s = true
  · by_cases last : (s.st.get .i3).top = 1#16
    · rw [exec_loopend_of_last active last] at run
      exact .inr (.inr (Host.Outcome.next.inj run).symm)
    · rw [exec_loopend_of_more active fun zero => last (by bv_omega)] at run
      exact .inr (.inl (Host.Outcome.next.inj run).symm)
  · rw [exec_loopend_of_inactive active] at run
    exact .inl (Host.Outcome.next.inj run).symm

/-- The two ends of a `CRWR` that does not reset (rule R121). -/
theorem exec_crwr_cases {v : Word} {s t : State} (run : exec (.crwr v) s = .next t)
    (plain : resets (.crwr v) = false) :
    t = respond 0#40 { s with initHint := true, cr := v ||| (1#16 <<< s.cfg.crInitStatusBit) } ∨
      t = respond 0#40 { s with cr := v } := by
  by_cases init : v = s.cfg.crInitValue
  · rw [exec_crwr_of_init plain init] at run
    exact .inl (Host.Outcome.next.inj run).symm
  · rw [exec_crwr_of_store plain init] at run
    exact .inr (Host.Outcome.next.inj run).symm

/-- The one command that resets (rule R121). -/
theorem exec_of_resets {i : Instr} {s t : State} (run : exec i s = .next t) (resetting : resets i = true) :
    ∃ v, i = .crwr v ∧ v.getLsbD 0 = true ∧
      t = respond 0#40 { performReset s with cr := v &&& ~~~0x0001#16 } := by
  cases i with
  | crwr v =>
    rw [exec_crwr_of_reset resetting] at run
    exact ⟨v, rfl, resetting, (Host.Outcome.next.inj run).symm⟩
  | _ => cases resetting

/-! ### The bookkeeping: what no register access reaches -/

/-- The parts of the state that no index of the register file names, and the open parameters. -/
structure Control where
  pc : Word
  stepCnt : Nat
  wbq : List (Reg × Word)
  initHint : Bool
  fWbovf : Bool
  fWbpending : Bool
  wBadcmd : Bool
  precise : Bool
  cfg : Config

/-- The bookkeeping of a state. -/
def controlOf (s : State) : Control :=
  ⟨s.pc, s.stepCnt, s.wbq, s.initHint, s.fWbovf, s.fWbpending, s.wBadcmd, s.precise, s.cfg⟩

theorem controlOf_respond (v : Long) (s : State) : controlOf (respond v s) = controlOf s := rfl
theorem controlOf_pop (k : Four) (s : State) : controlOf (pop k s) = controlOf s := rfl
theorem controlOf_countLoop (s : State) : controlOf (countLoop s) = controlOf s := rfl
theorem controlOf_regWrite (i : Reg) (v : Word) (s : State) : controlOf (regWrite i v s) = controlOf s := by
  cases i <;> rfl
theorem controlOf_afterRead (i : Reg) (s : State) : controlOf (afterRead i s) = controlOf s := by
  cases i <;> rfl
theorem controlOf_finishMul (r : Long) (w : Bool) (s : State) : controlOf (finishMul r w s) = controlOf s := by
  rw [finishMul_eq]
  rfl

theorem controlOf_flushEntry (s : State) (e : Reg × Word) : controlOf (flushEntry s e) = controlOf s := by
  rw [flushEntry]
  split_ifs
  · rw [controlOf_regWrite, controlOf_afterRead]
  · rw [controlOf_regWrite]

theorem controlOf_flushEntries (q : List (Reg × Word)) (s : State) :
    controlOf (flushEntries q s) = controlOf s :=
  flushEntries_keeps (P := fun t => controlOf t = controlOf s)
    (fun t e kept => (controlOf_flushEntry t e).trans kept) q s rfl
theorem controlOf_zeroEntries (q : List (Reg × Word)) (s : State) : controlOf (zeroEntries q s) = controlOf s :=
  zeroEntries_keeps (P := fun t => controlOf t = controlOf s)
    (fun t i kept => (controlOf_regWrite i 0#16 t).trans kept) q s rfl
theorem controlOf_zeroEntriesBut (a : Two) (q : List (Reg × Word)) (s : State) :
    controlOf (zeroEntriesBut a q s) = controlOf s :=
  zeroEntriesBut_keeps (P := fun t => controlOf t = controlOf s) a
    (fun t i kept => (controlOf_regWrite i 0#16 t).trans kept) q s rfl

/-! ### The bookkeeping after a command that does not reset -/

/-- Every way a command that does not reset can change the bookkeeping. -/
inductive ControlEffect (s t : State) : Instr → Prop
  /-- No change: most commands. -/
  | kept {i : Instr} (same : controlOf t = controlOf s) : ControlEffect s t i
  /-- A write queued (rule R100). -/
  | queued {i : Instr} (e : Reg × Word) (room : s.wbq.length ≠ s.cfg.wbCapacity)
      (appended : controlOf t = { controlOf s with wbq := s.wbq ++ [e] }) : ControlEffect s t i
  /-- A write refused by a full queue (rules R100 and R135). -/
  | overflow {i : Instr} (full : s.wbq.length = s.cfg.wbCapacity)
      (fault : controlOf t = { controlOf s with fWbovf := true }) : ControlEffect s t i
  /-- The queue emptied (rule R102). -/
  | flushed (emptied : controlOf t = { controlOf s with wbq := [] }) : ControlEffect s t .wbflush
  /-- A step counted (rule R112). -/
  | stepped (len : Word)
      (counted : controlOf t = { controlOf s with stepCnt := s.stepCnt + 1, pc := s.pc + len }) :
      ControlEffect s t (.step len)
  /-- A step refused because of a queued write (rules R112 and R136). -/
  | pending (len : Word) (held : s.wbq ≠ [])
      (fault : controlOf t = { controlOf s with fWbpending := true }) : ControlEffect s t (.step len)
  /-- A loop repeated (rule R118). -/
  | repeated (jumped : controlOf t = { controlOf s with pc := t.pc }) : ControlEffect s t .loopend
  /-- `PC` written (rule R114). -/
  | written (a : Word) (jumped : controlOf t = { controlOf s with pc := a }) : ControlEffect s t (.pcwr a)
  /-- The init value written by the host (rule R121). -/
  | initialised (v : Word) (hinted : controlOf t = { controlOf s with initHint := true }) :
      ControlEffect s t (.crwr v)

theorem queueWrite_effect (i : Instr) (r : Reg) (v : Word) (rsp : Long) (s : State) :
    ControlEffect s (queueWrite r v rsp s) i := by
  rcases queueWrite_cases r v rsp s with ⟨room, queued⟩ | ⟨full, fault⟩
  · rw [queued]
    exact .queued (r, v) room rfl
  · rw [fault]
    exact .overflow full rfl

theorem finishAddr_effect (i : Instr) (n : Four) (q : Bool) (v : Word) (s : State) :
    ControlEffect s (finishAddr n q v s) i := by
  cases q with
  | false => exact .kept rfl
  | true => exact queueWrite_effect i (.ar n) v (v.zeroExtend 40) s

/-- What a command that does not reset can do to the bookkeeping. -/
theorem exec_effect {i : Instr} {s t : State} (run : exec i s = .next t) (plain : resets i = false) :
    ControlEffect s t i := by
  cases i with
  | nop | accget | accset | prodget | prodgetr | prodset | sr16 | sr64 | srlz | cond | regrds | pcrd | crrd =>
    obtain rfl := Host.Outcome.next.inj run
    exact .kept rfl
  | arinc | ardec | araddix | arsubix =>
    obtain rfl := Host.Outcome.next.inj run
    exact finishAddr_effect _ _ _ _ _
  | mul | mac | msub | mulx =>
    obtain rfl := Host.Outcome.next.inj run
    exact .kept (controlOf_finishMul _ _ _)
  | cext i =>
    rcases exec_cext_cases run with rfl | ⟨a, rfl⟩
    · exact .kept rfl
    · exact .kept rfl
  | regrd i =>
    obtain rfl := Host.Outcome.next.inj run
    exact .kept (controlOf_afterRead i s)
  | regwr i v =>
    obtain rfl := Host.Outcome.next.inj run
    exact .kept (controlOf_regWrite i v s)
  | wbappend i v =>
    obtain rfl := Host.Outcome.next.inj run
    exact queueWrite_effect _ i v 0#40 s
  | wbflush =>
    obtain rfl := Host.Outcome.next.inj run
    exact .flushed (congrArg (fun c : Control => { c with wbq := [] }) (controlOf_flushEntries s.wbq s))
  | wbzero =>
    obtain rfl := Host.Outcome.next.inj run
    exact .kept (controlOf_zeroEntries s.wbq s)
  | wbzerop a =>
    obtain rfl := Host.Outcome.next.inj run
    exact .kept (controlOf_zeroEntriesBut a s.wbq s)
  | step len =>
    rcases exec_step_cases run with rfl | ⟨held, rfl⟩
    · exact .stepped len rfl
    · exact .pending len held rfl
  | loopend =>
    rcases exec_loopend_cases run with rfl | rfl | rfl
    · exact .kept rfl
    · exact .repeated rfl
    · refine .kept ?_
      rw [controlOf_respond, controlOf_pop, controlOf_pop, controlOf_pop, controlOf_countLoop]
  | pcwr a =>
    obtain rfl := Host.Outcome.next.inj run
    exact .written a rfl
  | crwr v =>
    rcases exec_crwr_cases run plain with rfl | rfl
    · exact .initialised v rfl
    · exact .kept rfl

/-! ### The rules about the bookkeeping -/

/-- Settles O14: of the effects only that of a counted step changes the count. -/
theorem onlyStepAndResetWriteTheStepCounter : Obligations.OnlyStepAndResetWriteTheStepCounter := by
  intro i s t run noStep plain
  cases exec_effect run plain with
  | stepped len => exact absurd rfl (noStep len)
  | kept same | queued _ _ same | overflow _ same | flushed same | pending _ _ same | repeated same | written _ same
  | initialised _ same => exact congrArg Control.stepCnt same

/-- Settles O15: of the effects only a counted step, a repeated loop and a write of `PC` change it. -/
theorem onlyFourCommandsWriteThePc : Obligations.OnlyFourCommandsWriteThePc := by
  intro i s t run noStep noWrite noLoop plain
  cases exec_effect run plain with
  | stepped len => exact absurd rfl (noStep len)
  | written a => exact absurd rfl (noWrite a)
  | repeated => exact absurd rfl noLoop
  | kept same | queued _ _ same | overflow _ same | flushed same | pending _ _ same | initialised _ same =>
    exact congrArg Control.pc same

/-- Settles O17: of the effects only a flush takes entries off, and only `queued` appends one. -/
theorem entriesLeaveOnlyByFlushOrReset : Obligations.EntriesLeaveOnlyByFlushOrReset := by
  intro i s t run noFlush plain
  cases exec_effect run plain with
  | flushed => exact absurd rfl noFlush
  | queued e _ same => exact ⟨[e], congrArg Control.wbq same, Nat.le_refl 1⟩
  | kept same | overflow _ same | stepped _ same | pending _ _ same | repeated same | written _ same
  | initialised _ same => exact ⟨[], by rw [List.append_nil]; exact congrArg Control.wbq same, Nat.zero_le 1⟩

/-- What stays set, and what stays as it is, until a reset (rules R31, R32, R137, R147). -/
structure StickyKept (c d : Control) : Prop where
  cfg : d.cfg = c.cfg
  fWbovf : c.fWbovf = true → d.fWbovf = true
  fWbpending : c.fWbpending = true → d.fWbpending = true
  wBadcmd : c.wBadcmd = true → d.wBadcmd = true
  initHint : c.initHint = true → d.initHint = true
  precise : d.precise = c.precise

theorem exec_keeps_sticky {i : Instr} {s t : State} (run : exec i s = .next t) (plain : resets i = false) :
    StickyKept (controlOf s) (controlOf t) := by
  cases exec_effect run plain with
  | kept same | queued _ _ same | flushed same | stepped _ same | repeated same | written _ same =>
    rw [same]
    exact ⟨rfl, id, id, id, id, rfl⟩
  | overflow _ same =>
    rw [same]
    exact ⟨rfl, fun _ => rfl, id, id, id, rfl⟩
  | pending _ _ same =>
    rw [same]
    exact ⟨rfl, id, fun _ => rfl, id, id, rfl⟩
  | initialised _ same =>
    rw [same]
    exact ⟨rfl, id, id, id, fun _ => rfl, rfl⟩

theorem exec_keeps_cfg {i : Instr} {s t : State} (run : exec i s = .next t) : t.cfg = s.cfg := by
  by_cases resetting : resets i = true
  · obtain ⟨v, -, -, rfl⟩ := exec_of_resets run resetting
    rfl
  · exact (exec_keeps_sticky run (Bool.eq_false_of_not_eq_true resetting)).cfg

/-- Settles O13: a clock without a reset runs no word, or stops it at the gate or as reserved, or executes a command
that keeps the sticky bits by `exec_keeps_sticky`. -/
theorem stickyBitsClearOnlyByReset : Obligations.StickyBitsClearOnlyByReset := by
  intro s t stepped
  obtain ⟨-, ⟨-, rfl⟩ | ⟨c, rest, seen, ⟨rst, rfl⟩ | ⟨rst, presented, run⟩ | ⟨-, -, rfl⟩⟩⟩ := clock_cases stepped
  case inl => exact ⟨rfl, fun _ => ⟨id, id, id, id, rfl⟩⟩
  case inr.inl => exact ⟨rfl, fun noReset => absurd ⟨c, rest, seen, .inl rst⟩ noReset⟩
  case inr.inr.inr => exact ⟨rfl, fun _ => ⟨id, id, id, id, rfl⟩⟩
  case inr.inr.inl =>
    obtain ⟨-, -, rfl⟩ | ⟨-, -, rfl⟩ | ⟨-, i, decoded, executed⟩ := runWord_cases run
    · exact ⟨rfl, fun _ => ⟨id, id, id, id, rfl⟩⟩
    · exact ⟨rfl, fun _ => ⟨id, id, fun _ => rfl, id, rfl⟩⟩
    · have cfg := exec_keeps_cfg executed
      refine ⟨cfg, fun noReset => ?_⟩
      have plain : resets i = false := by
        rw [← Bool.not_eq_true]
        intro resetting
        obtain ⟨v, rfl, set, -⟩ := exec_of_resets executed resetting
        exact noReset ⟨c, rest, seen, .inr ⟨presented, v, decoded, set⟩⟩
      have kept := exec_keeps_sticky executed plain
      exact ⟨kept.fWbovf, kept.fWbpending, kept.wBadcmd, kept.initHint, kept.precise⟩

/-! ### The status register -/

theorem afterRead_sr (i : Reg) (s : State) : (afterRead i s).sr = s.sr := by cases i <;> rfl

theorem flushEntry_sr {e : Reg × Word} (other : e.1 ≠ .sr) (s : State) : (flushEntry s e).sr = s.sr := by
  rw [flushEntry]
  split_ifs
  · rw [regWrite_sr _ _ other, afterRead_sr]
  · rw [regWrite_sr _ _ other]

section
variable {q : List (Reg × Word)} (others : ∀ e ∈ q, e.1 ≠ .sr)
include others

theorem flushEntries_sr (s : State) : (flushEntries q s).sr = s.sr :=
  List.foldlRecOn q flushEntry (motive := fun t : State => t.sr = s.sr) rfl
    fun t kept e held => (flushEntry_sr (others e held) t).trans kept

theorem zeroEntries_sr (s : State) : (zeroEntries q s).sr = s.sr :=
  List.foldlRecOn q _ (motive := fun t : State => t.sr = s.sr) rfl
    fun t kept e held => (regWrite_sr 0#16 t (others e held)).trans kept

theorem zeroEntriesBut_sr (a : Two) (s : State) : (zeroEntriesBut a q s).sr = s.sr := by
  refine List.foldlRecOn q _ (motive := fun t : State => t.sr = s.sr) rfl fun t kept e held => ?_
  split_ifs
  · exact kept
  · exact (regWrite_sr 0#16 t (others e held)).trans kept

end

theorem queueWrite_sr (i : Reg) (v : Word) (rsp : Long) (s : State) : (queueWrite i v rsp s).sr = s.sr := by
  rcases queueWrite_cases i v rsp s with ⟨-, queued⟩ | ⟨-, fault⟩
  · rw [queued, respond_sr]
  · rw [fault, raiseFault_wbovf_sr]

/-- Settles O16: every command but those excluded writes `SR` through `regWrite`, at an index that is not `SR`, or not
at all. -/
theorem onlyFlagCommandsAndIndexedWritesChangeSr : Obligations.OnlyFlagCommandsAndIndexedWritesChangeSr := by
  intro i s t run noFlags noWrite plain others
  cases i with
  | sr16 | sr64 | srlz | cond => cases noFlags
  | nop | accget | accset | prodget | prodgetr | prodset | regrds | pcrd | crrd | pcwr =>
    obtain rfl := Host.Outcome.next.inj run
    rfl
  | arinc n q | ardec n q | araddix n q | arsubix n q =>
    obtain rfl := Host.Outcome.next.inj run
    cases q with
    | false => rfl
    | true => exact queueWrite_sr _ _ _ s
  | mul | mac | msub | mulx =>
    obtain rfl := Host.Outcome.next.inj run
    rw [finishMul_eq]
    rfl
  | cext i =>
    rcases exec_cext_cases run with rfl | ⟨a, rfl⟩
    · rfl
    · rfl
  | regrd i =>
    obtain rfl := Host.Outcome.next.inj run
    exact afterRead_sr i s
  | regwr i v =>
    obtain rfl := Host.Outcome.next.inj run
    have other : i ≠ .sr := fun same => noWrite v (by rw [same])
    exact regWrite_sr v s other
  | wbappend i v =>
    obtain rfl := Host.Outcome.next.inj run
    exact queueWrite_sr i v 0#40 s
  | wbflush =>
    obtain rfl := Host.Outcome.next.inj run
    exact flushEntries_sr (others rfl) s
  | wbzero =>
    obtain rfl := Host.Outcome.next.inj run
    exact zeroEntries_sr (others rfl) s
  | wbzerop a =>
    obtain rfl := Host.Outcome.next.inj run
    exact zeroEntriesBut_sr (others rfl) a s
  | step len =>
    rcases exec_step_cases run with rfl | ⟨-, rfl⟩
    · rfl
    · rfl
  | loopend =>
    rcases exec_loopend_cases run with rfl | rfl | rfl
    · rfl
    · rfl
    · rw [respond_sr, pop_sr, pop_sr, pop_sr]
      rfl
  | crwr v =>
    rcases exec_crwr_cases run plain with rfl | rfl
    · rfl
    · rfl

/-! ### The shape of the high windows and the stacks -/

/-- What rules R12 and R27 say of every state of a run. -/
structure Shape (s : State) : Prop where
  highs : ∀ a, HighOk (s.ac.get a).h
  stackShape : StacksOk s

theorem highs_set {b : Bank2 Acc} (ok : ∀ a, HighOk (b.get a).h) {x : Acc} (high : HighOk x.h) (i a : Two) :
    HighOk ((b.set i x).get a).h := by
  rw [Bank2.get_set]
  split_ifs
  · exact high
  · exact ok a

/-- Both values of rule R77 are sign extensions. -/
theorem extendMid_high (x : Acc) : HighOk (extendMid x).h := by
  by_cases negative : x.m.getLsbD 15 = true
  · rw [extendMid, if_pos negative]
    exact sext8_high 0xFF#16
  · rw [extendMid, if_neg negative]
    exact sext8_high 0x00#16

theorem shape_respond {s : State} (ok : Shape s) (v : Long) : Shape (respond v s) := ⟨ok.highs, ok.stackShape⟩

theorem shape_setAcc {s : State} (ok : Shape s) {x : Acc} (high : HighOk x.h) (a : Two) :
    Shape { s with ac := s.ac.set a x } := ⟨highs_set ok.highs high a, ok.stackShape⟩

theorem shape_regWrite {s : State} (ok : Shape s) (i : Reg) (v : Word) : Shape (regWrite i v s) :=
  ⟨regWrite_highs i v ok.highs, regWrite_stacksOk i v ok.stackShape⟩

theorem shape_pop {s : State} (ok : Shape s) (k : Four) : Shape (pop k s) :=
  ⟨ok.highs, afterRead_stacksOk (.st k) ok.stackShape⟩

theorem shape_afterRead {s : State} (ok : Shape s) (i : Reg) : Shape (afterRead i s) := by
  rcases afterRead_eq i s with ⟨k, -, popped⟩ | ⟨-, same⟩
  · rw [popped]
    exact shape_pop ok k
  · rwa [same]

theorem shape_flushEntry {s : State} (ok : Shape s) (e : Reg × Word) : Shape (flushEntry s e) := by
  rw [flushEntry]
  split_ifs
  · exact shape_regWrite (shape_afterRead ok e.1) _ _
  · exact shape_regWrite ok _ _

theorem shape_countLoop {s : State} (ok : Shape s) : Shape (countLoop s) := by
  refine ⟨ok.highs, fun k => ?_⟩
  change StackOk s.cfg.stackDepth ((s.st.set .i3 _).get k)
  rw [Bank4.get_set]
  split_ifs
  · exact ok.stackShape .i3
  · exact ok.stackShape k

theorem shape_queueWrite {s : State} (ok : Shape s) (i : Reg) (v : Word) (rsp : Long) :
    Shape (queueWrite i v rsp s) := by
  rcases queueWrite_cases i v rsp s with ⟨-, queued⟩ | ⟨-, fault⟩
  · rw [queued]
    exact ⟨ok.highs, ok.stackShape⟩
  · rw [fault]
    exact ⟨ok.highs, ok.stackShape⟩

theorem exec_keeps_shape {i : Instr} {s t : State} (run : exec i s = .next t) (plain : resets i = false)
    (ok : Shape s) : Shape t := by
  cases i with
  | nop | accget | prodget | prodgetr | prodset | sr16 | sr64 | srlz | cond | regrds | pcrd | crrd | pcwr =>
    obtain rfl := Host.Outcome.next.inj run
    exact ⟨ok.highs, ok.stackShape⟩
  | arinc n q | ardec n q | araddix n q | arsubix n q =>
    obtain rfl := Host.Outcome.next.inj run
    cases q with
    | false => exact ⟨ok.highs, ok.stackShape⟩
    | true => exact shape_queueWrite ok _ _ _
  | accset a v =>
    obtain rfl := Host.Outcome.next.inj run
    exact shape_respond (shape_setAcc ok (x := accOfLong v) (signExtend_high _) a) _
  | mul | mac | msub | mulx =>
    obtain rfl := Host.Outcome.next.inj run
    rw [finishMul_eq]
    exact ⟨ok.highs, ok.stackShape⟩
  | cext i =>
    rcases exec_cext_cases run with rfl | ⟨a, rfl⟩
    · exact shape_respond ok _
    · exact shape_respond (shape_setAcc ok (extendMid_high _) a) _
  | regrd i =>
    obtain rfl := Host.Outcome.next.inj run
    exact shape_respond (shape_afterRead ok i) _
  | regwr i v =>
    obtain rfl := Host.Outcome.next.inj run
    exact shape_respond (shape_regWrite ok i v) _
  | wbappend i v =>
    obtain rfl := Host.Outcome.next.inj run
    exact shape_queueWrite ok i v _
  | wbflush =>
    obtain rfl := Host.Outcome.next.inj run
    have flushed : Shape (flushEntries s.wbq s) :=
      flushEntries_keeps (P := Shape) (fun _ e ok => shape_flushEntry ok e) s.wbq s ok
    exact ⟨flushed.highs, flushed.stackShape⟩
  | wbzero =>
    obtain rfl := Host.Outcome.next.inj run
    exact shape_respond (zeroEntries_keeps (P := Shape) (fun _ i ok => shape_regWrite ok i _) s.wbq s ok) _
  | wbzerop a =>
    obtain rfl := Host.Outcome.next.inj run
    exact shape_respond (zeroEntriesBut_keeps (P := Shape) a (fun _ i ok => shape_regWrite ok i _) s.wbq s ok) _
  | step len =>
    rcases exec_step_cases run with rfl | ⟨-, rfl⟩
    · exact ⟨ok.highs, ok.stackShape⟩
    · exact ⟨ok.highs, ok.stackShape⟩
  | loopend =>
    rcases exec_loopend_cases run with rfl | rfl | rfl
    · exact shape_respond ok _
    · exact ⟨ok.highs, (shape_countLoop ok).stackShape⟩
    · exact shape_respond (shape_pop (shape_pop (shape_pop (shape_countLoop ok) .i0) .i2) .i3) _
  | crwr v =>
    rcases exec_crwr_cases run plain with rfl | rfl
    · exact ⟨ok.highs, ok.stackShape⟩
    · exact ⟨ok.highs, ok.stackShape⟩

end Sys2Proof.Proofs
end

section
/-! PROOFS. The invariant of every run: the bookkeeping half through the effects of a command, the shape half through
its register accesses, and both after a reset. -/

namespace Sys2Proof.Proofs

open Sys2Proof Sys2Proof.Machine Sys2Proof.Safety

/-! ### The two halves of the invariant -/

/-- The half of the invariant that speaks of the queue, the faults and the open parameters (rules R30, R135, R136,
R143). -/
structure ControlOk (c : Control) : Prop where
  config : c.cfg.valid = true
  queueBound : c.wbq.length ≤ c.cfg.wbCapacity
  overflowFull : c.fWbovf = true → c.wbq.length = c.cfg.wbCapacity
  pendingKept : c.fWbpending = true → c.wbq ≠ []
  oneFault : ¬(c.fWbovf = true ∧ c.fWbpending = true)

theorem inv_iff (s : State) : Inv s ↔ ControlOk (controlOf s) ∧ Shape s :=
  ⟨fun ⟨config, highs, shaped, bound, full, kept, one⟩ => ⟨⟨config, bound, full, kept, one⟩, ⟨highs, shaped⟩⟩,
    fun ⟨⟨config, bound, full, kept, one⟩, ⟨highs, shaped⟩⟩ => ⟨config, highs, shaped, bound, full, kept, one⟩⟩

/-! ### The bookkeeping half -/

/-- Without a fault only the bound of the queue remains. -/
theorem controlOk_of_unfaulted {c : Control} (config : c.cfg.valid = true)
    (bound : c.wbq.length ≤ c.cfg.wbCapacity) (overflow : c.fWbovf = false) (pending : c.fWbpending = false) :
    ControlOk c where
  config := config
  queueBound := bound
  overflowFull set := absurd set (by rw [overflow]; decide)
  pendingKept set := absurd set (by rw [pending]; decide)
  oneFault both := absurd both.1 (by rw [overflow]; decide)

/-- A command executed without a fault pending raises at most one, with the queue as the fault records it. -/
theorem controlOk_of_effect {i : Instr} {s t : State} (effect : ControlEffect s t i) (unfaulted : faulted s = false)
    (ok : ControlOk (controlOf s)) : ControlOk (controlOf t) := by
  obtain ⟨overflow, pending⟩ := Bool.or_eq_false_iff.mp unfaulted
  cases effect with
  | kept same => rwa [same]
  | queued e room same =>
    rw [same]
    have bound : (s.wbq ++ [e]).length ≤ s.cfg.wbCapacity := by
      rw [List.length_append, List.length_singleton]
      exact Nat.lt_of_le_of_ne ok.queueBound room
    exact controlOk_of_unfaulted ok.config bound overflow pending
  | flushed same =>
    rw [same]
    exact controlOk_of_unfaulted ok.config (Nat.zero_le _) overflow pending
  | stepped _ same | repeated same | written _ same | initialised _ same =>
    rw [same]
    exact controlOk_of_unfaulted ok.config ok.queueBound overflow pending
  | overflow full same =>
    rw [same]
    exact ⟨ok.config, ok.queueBound, fun _ => full, ok.pendingKept,
      fun both => absurd (both.2.symm.trans pending) (by decide)⟩
  | pending _ held same =>
    rw [same]
    exact ⟨ok.config, ok.queueBound, ok.overflowFull, fun _ => held,
      fun both => absurd (both.1.symm.trans overflow) (by decide)⟩

/-! ### Reset -/

/-- U6: a stack has a backing entry. -/
theorem stackDepth_pos {c : Config} (valid : c.valid = true) : 1 ≤ c.stackDepth := by
  simp only [Config.valid, Bool.and_eq_true, decide_eq_true_eq] at valid
  omega

theorem performReset_shape {s : State} (valid : s.cfg.valid = true) : Shape (performReset s) := by
  refine ⟨(performReset_values s).highs, fun k => ?_⟩
  cases k <;> exact resetStack_ok s _ _ (stackDepth_pos valid)

theorem performReset_control {s : State} (valid : s.cfg.valid = true) : ControlOk (controlOf (performReset s)) :=
  controlOk_of_unfaulted valid (Nat.zero_le _) rfl rfl

/-! ### A command and a clock -/

theorem exec_keeps_inv {i : Instr} {s t : State} (run : exec i s = .next t)
    (accepted : faulted s = true → resets i = true) (inv : Inv s) : Inv t := by
  obtain ⟨control, shape⟩ := (inv_iff s).mp inv
  by_cases resetting : resets i = true
  · obtain ⟨v, -, -, rfl⟩ := exec_of_resets run resetting
    have afterReset := performReset_shape inv.config
    exact (inv_iff _).mpr ⟨performReset_control inv.config, ⟨afterReset.highs, afterReset.stackShape⟩⟩
  · have plain : resets i = false := Bool.eq_false_of_not_eq_true resetting
    have unfaulted : faulted s = false := Bool.eq_false_of_not_eq_true (mt accepted resetting)
    exact (inv_iff t).mpr
      ⟨controlOk_of_effect (exec_effect run plain) unfaulted control, exec_keeps_shape run plain shape⟩

/-- Settles O12: every end of a clock keeps both halves of the invariant; the gate of rule R138 lets only a reset pass
while a fault bit is set. -/
theorem everyStepKeepsTheInvariant : Obligations.EveryStepKeepsTheInvariant := by
  intro s t inv stepped
  obtain ⟨control, shape⟩ := (inv_iff s).mp inv
  obtain ⟨valid, ⟨-, rfl⟩ | ⟨c, rest, -, ⟨-, rfl⟩ | ⟨-, -, run⟩ | ⟨-, -, rfl⟩⟩⟩ := clock_cases stepped
  case inl => exact inv
  case inr.inl =>
    exact (inv_iff _).mpr ⟨performReset_control (s := seeClock c rest s) valid, performReset_shape valid⟩
  case inr.inr.inr => exact (inv_iff _).mpr ⟨control, ⟨shape.highs, shape.stackShape⟩⟩
  case inr.inr.inl =>
    have seen : Inv (seeClock c rest s) := (inv_iff _).mpr ⟨control, ⟨shape.highs, shape.stackShape⟩⟩
    obtain ⟨-, -, rfl⟩ | ⟨-, -, rfl⟩ | ⟨gate, i, decoded, executed⟩ := runWord_cases run
    · exact (inv_iff _).mpr ⟨control, ⟨shape.highs, shape.stackShape⟩⟩
    · obtain ⟨config, bound, full, kept, one⟩ := control
      exact (inv_iff _).mpr ⟨⟨config, bound, full, kept, one⟩, ⟨shape.highs, shape.stackShape⟩⟩
    · rw [resettingWord_of_decode decoded] at gate
      exact exec_keeps_inv executed gate seen

end Sys2Proof.Proofs
end

section
/-! PROOFS. Laws of more than one command: the windows of an accumulator, the bound of a product, a `MAC` undone by an
`MSUB`, the conditions after `SR64`, flags across a run of commands, and a push undone by a pop. -/

namespace Sys2Proof.Proofs

open Sys2Proof Sys2Proof.Machine Sys2Proof.Safety

/-! ### The windows of an accumulator (rules R13 and R81 (d)) -/

theorem sext8_low (v : Word) : (sext8 v).toNat % 2 ^ 8 = v.toNat % 2 ^ 8 := by
  have byte : (sext8 v).setWidth 8 = v.setWidth 8 := by
    apply BitVec.eq_of_getLsbD_eq
    intro j inside
    rw [sext8, BitVec.getLsbD_setWidth, BitVec.getLsbD_signExtend, BitVec.getLsbD_setWidth, if_pos inside,
      BitVec.getLsbD_extractLsb', Nat.zero_add]
    simp [inside, show j < 16 by omega]
  exact congrArg BitVec.toNat byte

theorem regWrite_ach (a : Two) (v : Word) (s : State) :
    (regWrite (.ach a) v s).ac.get a = ⟨sext8 v, (s.ac.get a).m, (s.ac.get a).l⟩ := Bank2.get_set_self _ _ _
theorem regWrite_acm (a : Two) (v : Word) (s : State) :
    (regWrite (.acm a) v s).ac.get a = ⟨(s.ac.get a).h, v, (s.ac.get a).l⟩ := Bank2.get_set_self _ _ _
theorem regWrite_acl (a : Two) (v : Word) (s : State) :
    (regWrite (.acl a) v s).ac.get a = ⟨(s.ac.get a).h, (s.ac.get a).m, v⟩ := Bank2.get_set_self _ _ _

/-- The three windows are the digits of the long value. -/
theorem accNat_digits (x : Acc) : accNat x / 2 ^ 32 = x.h.toNat % 2 ^ 8 ∧
    accNat x % 2 ^ 32 = x.m.toNat * 2 ^ 16 + x.l.toNat ∧ accNat x % 2 ^ 16 = x.l.toNat := by
  have mid := x.m.isLt
  have low := x.l.isLt
  rw [accNat]
  omega

/-- Settles O31: each write replaces one digit of `accNat_digits`. -/
theorem windowWritesChangeOnlyTheirBits : Obligations.WindowWritesChangeOnlyTheirBits := by
  intro a v s
  obtain ⟨high, middleLow, low⟩ := accNat_digits (s.ac.get a)
  refine ⟨_, _, _, exec_regwr _ v s, exec_regwr _ v s, exec_regwr _ v s, ?high, ?mid, ?low⟩
  case high =>
    rw [respond_ac, regWrite_ach, middleLow, accNat, sext8_low, Nat.add_assoc, Nat.add_comm]
  case mid =>
    rw [respond_ac, regWrite_acm, high, low, accNat]
  case low =>
    simp only [respond_ac, regWrite_acl, accNat]
    omega

/-! ### The multiplier (rule R89) -/

/-- Settles O36: the answer is the exact product by `wrap40_mulProd`, bounded by `mulProd_bounds`. -/
theorem mulResultIsBounded : Obligations.MulResultIsBounded := by
  intro m w a b s
  refine ⟨_, exec_mul m w a b s, ?_⟩
  rw [finishMul_eq, respond_rspData, wrap40_mulProd, ← mulProd_eq_mulInt]
  exact mulProd_bounds _ _ m a b

/-- A product added and taken off again leaves the long value. -/
theorem wrap40_add_sub (x : Long) (p : Int) : wrap40 ((wrap40 (x.toInt + p)).toInt - p) = x := by
  apply BitVec.eq_of_toInt_eq
  rw [wrap40_toInt, wrap40_toInt, Int.bmod_sub_bmod, Int.add_sub_cancel, BitVec.toInt_bmod_cancel]

theorem prodInt_productOfLong (v : Long) : prodInt (productOfLong v) = v.toInt := by
  rw [← product_long_toInt, productOfLong_long]

/-- Settles O37: the product register written is read back by `productOfLong_long`, so the sum of `MAC` is undone by
`wrap40_add_sub`; `SR` and with it the product are the same for both. -/
theorem macThenMsubRestoresTheProduct : Obligations.MacThenMsubRestoresTheProduct := by
  intro m a b s
  refine ⟨_, _, exec_mac m true a b s, exec_msub m true a b _, ?value, rfl, rfl⟩
  change prodInt (productOfLong (wrap40 ((productOfLong (wrap40 _)).long.toInt - _))) = _
  rw [prodInt_productOfLong, productOfLong_long, ← product_long_toInt s.prod]
  exact congrArg BitVec.toInt (wrap40_add_sub s.prod.long (mulProd (srSU s.sr) (srAM s.sr) m a b))

/-! ### Conditions and flags (rule R98) -/

theorem eq_zero_iff_toInt (x : Long) : x = 0#40 ↔ x.toInt = 0 := by
  rw [← BitVec.toInt_inj, BitVec.toInt_zero]

section
variable (sr : Word) (x : Long) (c o : Bool)

theorem sr64Flags_az : srAZ (sr64Flags sr x c o) = decide (x = 0#40) := updateFlags_getLsbD sr c o _ _ _ _ 2
theorem sr64Flags_o : srO (sr64Flags sr x c o) = o := updateFlags_getLsbD sr c o _ _ _ _ 1
theorem sr64Flags_s : srS (sr64Flags sr x c o) = decide (x.toInt < 0) := updateFlags_getLsbD sr c o _ _ _ _ 3
theorem sr64Flags_as : srAS (sr64Flags sr x c o) = !fits32 x := updateFlags_getLsbD sr c o _ _ _ _ 4
theorem sr64Flags_tb : srTB (sr64Flags sr x c o) = (x.getLsbD 31 == x.getLsbD 30) :=
  updateFlags_getLsbD sr c o _ _ _ _ 5

theorem sr64Flags_zero_iff : srAZ (sr64Flags sr x c o) = true ↔ x.toInt = 0 := by
  rw [sr64Flags_az, decide_eq_true_iff, eq_zero_iff_toInt]

/-- The overflow input turns the sense of the sign (rule R98 (c)). -/
theorem sr64Flags_less_iff : srLess (sr64Flags sr x c o) = true ↔ (x.toInt < 0 ↔ o = false) := by
  change (srO (sr64Flags sr x c o) ^^ srS (sr64Flags sr x c o)) = true ↔ _
  rw [sr64Flags_o, sr64Flags_s]
  cases o with
  | false => simp
  | true => simp

/-- Condition A after `SR64` (rule R98 (d)). -/
theorem sr64Flags_a_iff : srA (sr64Flags sr x c o) = true ↔
    x.toInt ≠ 0 ∧ (¬(-2 ^ 31 ≤ x.toInt ∧ x.toInt ≤ 2 ^ 31 - 1) ∨ x.getLsbD 31 = x.getLsbD 30) := by
  rw [srA, Bool.and_eq_true, Bool.or_eq_true, Bool.not_eq_true', ← Bool.not_eq_true, sr64Flags_zero_iff,
    sr64Flags_as, sr64Flags_tb, Bool.not_eq_true', ← Bool.not_eq_true, fits32_iff, beq_iff_eq, and_comm]

end

/-- Settles O42: the rows of the condition table on the flags of `SR64`. -/
theorem conditionsAfterSr64CompareWithZero : Obligations.ConditionsAfterSr64CompareWithZero := by
  intro x c o s
  have zero := sr64Flags_zero_iff s.sr x c o
  have less := sr64Flags_less_iff s.sr x c o
  refine ⟨_, exec_sr64 x c o s, ⟨_, exec_cond .z _, zero⟩, ⟨_, exec_cond .l _, less⟩, ⟨_, exec_cond .g _, ?greater⟩,
    ⟨_, exec_cond .a _, sr64Flags_a_iff s.sr x c o⟩⟩
  change (!srLess (sr64Flags s.sr x c o) && !srAZ (sr64Flags s.sr x c o)) = true ↔ _
  rw [Bool.and_eq_true, Bool.not_eq_true', Bool.not_eq_true', ← Bool.not_eq_true, ← Bool.not_eq_true, zero, less]
  rw [not_iff, not_lt]

/-- `OS` is sticky (rules R92 and R93). -/
theorem updateFlags_os (sr : Word) (c o zero neg over32 tb : Bool) :
    (updateFlags sr c o zero neg over32 tb).getLsbD 7 = (sr.getLsbD 7 || o) :=
  updateFlags_getLsbD sr c o zero neg over32 tb 7

theorem exec_flagCommand_keeps_os {i : Instr} {s : State} (flags : flagCommand i = true)
    (set : s.sr.getLsbD 7 = true) : ∃ t, exec i s = .next t ∧ t.sr.getLsbD 7 = true := by
  cases i with
  | sr16 x c o f =>
    refine ⟨_, exec_sr16 x c o f s, ?_⟩
    rw [respond_sr, sr16Flags, updateFlags_os, set, Bool.true_or]
  | sr64 x c o =>
    refine ⟨_, exec_sr64 x c o s, ?_⟩
    rw [respond_sr, sr64Flags, updateFlags_os, set, Bool.true_or]
  | srlz b =>
    refine ⟨_, exec_srlz b s, ?_⟩
    rwa [respond_sr, srlzFlags_getLsbD, if_neg (by decide)]
  | cond cc => exact ⟨_, exec_cond cc s, set⟩
  | _ => cases flags

/-- Settles O43: by induction on the sequence, with `exec_flagCommand_keeps_os` for its first command. -/
theorem stickyOverflowSurvivesFlagCommands : Obligations.StickyOverflowSurvivesFlagCommands := by
  intro is
  induction is with
  | nil => exact fun s _ set => ⟨s, rfl, set⟩
  | cons i is ih =>
    intro s flags set
    obtain ⟨first, rest⟩ := List.forall_mem_cons.mp flags
    obtain ⟨t, run, kept⟩ := exec_flagCommand_keeps_os first set
    rw [runCommands, run]
    exact ih t rest kept

/-! ### Queued writes (rules R103, R104 and R107) -/

theorem flushEntry_stacksOk {s : State} (e : Reg × Word) (ok : StacksOk s) : StacksOk (flushEntry s e) := by
  rw [flushEntry]
  split_ifs
  · exact regWrite_stacksOk _ _ (afterRead_stacksOk _ ok)
  · exact regWrite_stacksOk _ _ ok

theorem flushEntries_stacksOk (q : List (Reg × Word)) {s : State} (ok : StacksOk s) : StacksOk (flushEntries q s) :=
  flushEntries_keeps (P := StacksOk) (fun _ e kept => flushEntry_stacksOk e kept) q s ok

/-- A queued stack write flushed in precise mode: the pop and the push meet on the top. -/
theorem flushEntry_stack {s : State} (precise : s.precise = true) (k : Four) (ok : StacksOk s) (v : Word) :
    flushEntry s (.st k, v) = { s with
      st := s.st.set k { s.st.get k with top := (s.st.get k).top ||| v } } := by
  rw [flushEntry, if_pos precise, regValue, afterRead, regWrite, push, pop_st, pop_cfg, Bank4.get_set_self,
    Bank4.set_set, pushStack_popStack _ (ok k)]
  rfl

/-- Settles O46: the last entry of the flush is `flushEntry_stack` after the flush of `q`. -/
theorem preciseFlushOrsTheStackTopInPlace : Obligations.PreciseFlushOrsTheStackTopInPlace := by
  intro s q k v ok precise held
  have flushed := exec_wbflush_withQueue (q ++ [(.st k, v)]) s
  rw [withQueue_eq_self held, flushEntries_snoc,
    flushEntry_stack ((flushEntries_precise q s).trans precise) k (flushEntries_stacksOk q ok)] at flushed
  exact ⟨_, exec_wbflush_withQueue q s, flushed⟩

theorem flushEntries_singleton (e : Reg × Word) (s : State) : flushEntries [e] s = flushEntry s e := rfl

/-- Of two writes to a register that is no stack the later one holds. -/
theorem regWrite_regWrite {i : Reg} (noStack : ∀ k, i ≠ .st k) (v w : Word) (s : State) :
    regWrite i v (regWrite i w s) = regWrite i v s := by
  cases i with
  | st k => exact absurd rfl (noStack k)
  | ar | ix | wr | ach | axl | axh | acl | acm => simp [regWrite]
  | cr | sr | prodl | prodm | prodh | prodm2 => rfl

theorem regValue_zeroed (i : Reg) (s : State) : regValue i (regWrite i 0#16 s) = 0#16 := by
  rw [regValue_regWrite]
  cases i <;> rfl

/-- The OR of a precise flush finds the zero written before it. -/
theorem flushEntry_zeroed {i : Reg} (noStack : ∀ k, i ≠ .st k) {s : State} (precise : s.precise = true) (v : Word) :
    flushEntry (regWrite i 0#16 s) (i, v) = regWrite i v s := by
  rcases flushEntry_precise (i, v) ((regWrite_precise i 0#16 s).trans precise) with ⟨k, stack, -⟩ | ⟨-, written⟩
  · exact absurd stack (noStack k)
  · rw [written, regValue_zeroed, BitVec.zero_or, regWrite_regWrite noStack]

/-- Settles O49: the flush after the zeroing is `flushEntry_zeroed`, and `regWrite` does not look at the queue. -/
theorem zeroedTargetTakesTheQueuedValueAlone : Obligations.ZeroedTargetTakesTheQueuedValueAlone := by
  intro s i v precise held noStack
  have zeroed := exec_wbzero_withQueue [(i, v)] s
  rw [withQueue_eq_self held] at zeroed
  have flushed := exec_wbflush_withQueue [(i, v)] (respond 0#40 (regWrite i 0#16 s))
  rw [flushEntries_singleton, flushEntry_respond, flushEntry_zeroed noStack precise] at flushed
  refine ⟨_, _, zeroed, flushed, ?_⟩
  change exec (.regwr i v) (withQueue [] s) = _
  rw [exec_regwr, regWrite_withQueue]
  rfl

/-! ### Stacks (rule R29) -/

/-- The pointer goes back, and the pop reads the backing entry the push wrote. -/
theorem popStack_pushStack {d : Nat} {k : Stack} (v : Word) (ok : StackOk d k) :
    popStack d (pushStack d v k) = { k with mem := k.mem.set ((k.ptr + 1) % d) k.top } := by
  obtain ⟨stored, inside⟩ := ok
  have entry : (k.ptr + 1) % d < k.mem.length := by
    rw [stored]
    exact Nat.mod_lt _ (by omega)
  have top : (k.mem.set ((k.ptr + 1) % d) k.top).getD ((k.ptr + 1) % d) 0#16 = k.top := by
    rw [List.getD_eq_getElem _ _ (by rwa [List.length_set]), List.getElem_set_self]
  rw [popStack, pushStack_ptr, pushStack_mem, top, push_pop_ptr inside]

theorem pop_push {k : Four} {s : State} (ok : StackOk s.cfg.stackDepth (s.st.get k)) (v : Word) :
    pop k (push k v s) = { s with
      st := s.st.set k { s.st.get k with
        mem := (s.st.get k).mem.set (((s.st.get k).ptr + 1) % s.cfg.stackDepth) (s.st.get k).top } } := by
  rw [pop, push_st, push_cfg, Bank4.get_set_self, Bank4.set_set, popStack_pushStack v ok]
  rfl

/-- Settles O59: the answer is the top the push left, and the state is that of `pop_push`. -/
theorem popUndoesPush : Obligations.PopUndoesPush := by
  intro k v s ok
  have answer : regValue (.st k) (respond 0#40 (push k v s)) = v := by
    rw [regValue_respond]
    exact regValue_regWrite (.st k) v s
  have popped : afterRead (.st k) (respond 0#40 (push k v s)) = respond 0#40 (pop k (push k v s)) :=
    afterRead_respond (.st k) 0#40 (push k v s)
  refine ⟨_, _, exec_regwr (.st k) v s, exec_regrd_ofNat (.st k) _, ?_⟩
  rw [regWrite, answer, popped, pop_push ok]
  rfl

end Sys2Proof.Proofs
end

section
/-! PROOFS. Circular addressing (rule R73): under a mask `2^k - 1` each wrap test of rules R65 to R68 asks whether the
low `k` bits carry, so the corrected candidate is the address moved inside its aligned block of `2^k` words. -/

namespace Sys2Proof.Proofs

open Sys2Proof Sys2Proof.Machine Sys2Proof.Safety

/-! ### The moved address -/

/-- The address moved by `δ` inside its block (rule R73). -/
def moved (k : Nat) (ar : Word) (δ : Int) : Word :=
  (ar &&& ~~~ringMask k) ||| ((ar + BitVec.ofInt 16 δ) &&& ringMask k)

/-- The place of an address in its block. -/
def offset (k : Nat) (ar : Word) : Nat := ar.toNat % 2 ^ k

theorem offset_lt (k : Nat) (ar : Word) : offset k ar < 2 ^ k := Nat.mod_lt _ (Nat.two_pow_pos k)

theorem ringMask_toNat {k : Nat} (small : k ≤ 16) : (ringMask k).toNat = 2 ^ k - 1 := by
  have fits : 2 ^ k ≤ 2 ^ 16 := Nat.pow_le_pow_right (by decide) small
  rw [ringMask, BitVec.toNat_ofNat]
  exact Nat.mod_eq_of_lt (by omega)

theorem ringMask_getLsbD {k : Nat} (small : k ≤ 16) (j : Nat) : (ringMask k).getLsbD j = decide (j < k) := by
  rw [BitVec.getLsbD, ringMask_toNat small, Nat.testBit_two_pow_sub_one]

section
variable {k : Nat} (small : k ≤ 16) (ar : Word)
include small

/-- Above the block nothing moves. -/
theorem moved_div (δ : Int) : (moved k ar δ).toNat / 2 ^ k = ar.toNat / 2 ^ k := by
  apply Nat.eq_of_testBit_eq
  intro j
  rw [Nat.testBit_div_two_pow, Nat.testBit_div_two_pow]
  change (moved k ar δ).getLsbD (j + k) = ar.getLsbD (j + k)
  rw [moved, BitVec.getLsbD_or, BitVec.getLsbD_and, BitVec.getLsbD_and, BitVec.getLsbD_not, ringMask_getLsbD small]
  by_cases inside : j + k < 16
  · simp [inside]
  · simp [inside, BitVec.getLsbD_of_ge ar (j + k) (by omega)]

/-- Inside the block the low bits are those of the sum. -/
theorem moved_modEq (δ : Int) : (moved k ar δ).toNat ≡ ar.toNat + δ [ZMOD (2 ^ k : Nat)] := by
  have divides : ((2 ^ k : Nat) : Int) ∣ (2 ^ 16 : Nat) := Int.natCast_dvd_natCast.mpr (Nat.pow_dvd_pow 2 small)
  have sum : (ar + BitVec.ofInt 16 δ).toNat ≡ ar.toNat + δ [ZMOD (2 ^ 16 : Nat)] := by
    rw [Int.ModEq, BitVec.toNat_add, BitVec.toNat_ofInt]
    omega
  have low : (moved k ar δ).toNat ≡ (ar + BitVec.ofInt 16 δ).toNat [MOD 2 ^ k] := by
    apply Nat.eq_of_testBit_eq
    intro j
    rw [Nat.testBit_mod_two_pow, Nat.testBit_mod_two_pow]
    change (decide (j < k) && (moved k ar δ).getLsbD j) = (decide (j < k) && (ar + BitVec.ofInt 16 δ).getLsbD j)
    rw [moved, BitVec.getLsbD_or, BitVec.getLsbD_and, BitVec.getLsbD_and, BitVec.getLsbD_not, ringMask_getLsbD small]
    by_cases inside : j < k
    · simp [inside]
    · simp [inside]
  exact (Int.natCast_modEq_iff.mpr low).trans (sum.of_dvd divides)

/-- The two facts fix the moved address. -/
theorem eq_moved {y δ : Int} (block : y / (2 ^ k : Nat) = (ar.toNat / 2 ^ k : Nat))
    (congruent : y ≡ ar.toNat + δ [ZMOD (2 ^ k : Nat)]) : y = (moved k ar δ).toNat := by
  have quotient : ((moved k ar δ).toNat : Int) / (2 ^ k : Nat) = y / (2 ^ k : Nat) := by
    rw [block, ← moved_div small ar δ, Int.natCast_div]
  have remainder := congruent.trans (moved_modEq small ar δ).symm
  rw [← Int.mul_ediv_add_emod y (2 ^ k : Nat), remainder, ← quotient, Int.mul_ediv_add_emod]

/-- A displacement that stays in the block and is `δ`, or `δ` one block further up or down, gives the moved address. -/
theorem displaced_eq_moved {δ e : Int} (inside : 0 ≤ offset k ar + e ∧ offset k ar + e < (2 ^ k : Nat))
    (near : e = δ ∨ e = δ + (2 ^ k : Nat) ∨ e = δ - (2 ^ k : Nat)) :
    BitVec.ofInt 16 (ar.toNat + e) = moved k ar δ := by
  have block : (ar.toNat + e) / (2 ^ k : Nat) = (ar.toNat / 2 ^ k : Nat) := by
    have split := Nat.div_add_mod ar.toNat (2 ^ k)
    refine ((Int.ediv_emod_unique (by omega)).mpr ⟨?_, inside.1, inside.2⟩).1
    rw [offset]
    zify at split ⊢
    linarith only [split]
  have congruent : ar.toNat + e ≡ ar.toNat + δ [ZMOD (2 ^ k : Nat)] := by
    rcases near with rfl | rfl | rfl
    · rfl
    · rw [← Int.add_assoc, Int.ModEq, Int.add_emod_right]
    · rw [← Int.add_sub_assoc, Int.ModEq, Int.sub_emod_right]
  rw [eq_moved small ar block congruent, BitVec.ofInt_natCast, BitVec.ofNat_toNat, BitVec.setWidth_eq]

/-- Moving there and back is no move. -/
theorem moved_back (δ : Int) : moved k (moved k ar δ) (-δ) = ar := by
  have congruent : ar.toNat ≡ (moved k ar δ).toNat + -δ [ZMOD (2 ^ k : Nat)] := by
    have back := (moved_modEq small ar δ).symm.add_right (-δ)
    rwa [Int.add_neg_cancel_right] at back
  have same := eq_moved small (moved k ar δ) (y := ar.toNat) (by rw [moved_div small, Int.natCast_div]) congruent
  exact (BitVec.eq_of_toNat_eq (Int.natCast_inj.mp same)).symm

end

/-- A block further up is the same place. -/
theorem moved_add_block {k : Nat} (small : k ≤ 16) (ar : Word) (δ : Int) :
    moved k ar (δ + (2 ^ k : Nat)) = moved k ar δ := by
  have congruent : (moved k ar (δ + (2 ^ k : Nat))).toNat ≡ ar.toNat + δ [ZMOD (2 ^ k : Nat)] := by
    have sum := moved_modEq small ar (δ + (2 ^ k : Nat))
    rwa [← Int.add_assoc, Int.ModEq, Int.add_emod_right] at sum
  have same := eq_moved small ar (by rw [← moved_div small, Int.natCast_div]) congruent
  exact BitVec.eq_of_toNat_eq (Int.natCast_inj.mp same)

/-! ### The candidates and their corrections, modulo 2^32 -/

section
variable {k : Nat} (small : k ≤ 16)
include small

theorem mask_toNat : ((ringMask k).zeroExtend 32).toNat = 2 ^ k - 1 := by
  rw [widened_toNat, ringMask_toNat small]

variable {x : BitVec 32} {n : Int} (value : x.toNat = u32 n)
include value

theorem lowered_toNat : (x - ((ringMask k).zeroExtend 32 + 1#32)).toNat = u32 (n - (2 ^ k : Nat)) := by
  have fits : 2 ^ k ≤ 2 ^ 16 := Nat.pow_le_pow_right (by decide) small
  have pos : 0 < 2 ^ k := Nat.two_pow_pos k
  rw [BitVec.toNat_sub, BitVec.toNat_add, mask_toNat small, value, BitVec.toNat_ofNat]
  generalize 2 ^ k = P at fits pos ⊢
  simp only [u32]
  omega

theorem lifted_toNat : (x + (ringMask k).zeroExtend 32 + 1#32).toNat = u32 (n + (2 ^ k : Nat)) := by
  have fits : 2 ^ k ≤ 2 ^ 16 := Nat.pow_le_pow_right (by decide) small
  have pos : 0 < 2 ^ k := Nat.two_pow_pos k
  rw [raised_toNat, mask_toNat small, value]
  generalize 2 ^ k = P at fits pos ⊢
  simp only [u32]
  omega

theorem low_bits_of_value : (x.toNat % 2 ^ k : Nat) = n % (2 ^ k : Nat) := by
  have divides : ((2 ^ k : Nat) : Int) ∣ 2 ^ 32 :=
    Int.natCast_dvd_natCast.mpr (Nat.pow_dvd_pow 2 (show k ≤ 32 by omega))
  rw [value, u32, Int.natCast_emod, Int.toNat_of_nonneg (Int.emod_nonneg n (by decide)),
    Int.emod_emod_of_dvd n divides]

end

theorem low16_of_value {x : BitVec 32} {n : Int} (value : x.toNat = u32 n) :
    x.extractLsb' 0 16 = BitVec.ofInt 16 n := by
  rw [low16_eq, value]
  apply BitVec.eq_of_toNat_eq
  simp only [BitVec.toNat_ofInt, u32]
  omega

/-! ### The wrap tests -/

/-- The carry into bit `k` of a sum, with a carry into bit 0 or not, as the tests find it. -/
theorem sum_bit {k : Nat} (inside : k < 32) (x y : BitVec 32) (c : Bool) :
    ((x + y + (BitVec.ofBool c).setWidth 32) ^^^ x ^^^ y).getLsbD k =
      decide (2 ^ k ≤ x.toNat % 2 ^ k + y.toNat % 2 ^ k + c.toNat) := by
  have cancel : ∀ a b d : Bool, ((a ^^ (b ^^ d)) ^^ a ^^ b) = d := by decide
  rw [BitVec.getLsbD_xor, BitVec.getLsbD_xor, BitVec.getLsbD_add_add_bool inside, cancel, BitVec.carry]

/-- The wrap mask lies below bit `k`. -/
theorem mask_clear {k : Nat} (small : k ≤ 16) : ((ringMask k).zeroExtend 32).getLsbD k = false := by
  rw [BitVec.getLsbD_setWidth, ringMask_getLsbD small, decide_eq_false (Nat.lt_irrefl k), Bool.and_false]

/-- Adding a block to a candidate changes its bit `k`. -/
theorem lifted_bit {k : Nat} (small : k ≤ 16) (x : BitVec 32) :
    ((x + (ringMask k).zeroExtend 32 + 1#32) ^^^ x).getLsbD k = true := by
  have carries := sum_bit (k := k) (by omega) x ((ringMask k).zeroExtend 32) true
  have full : 2 ^ k ≤ x.toNat % 2 ^ k + ((ringMask k).zeroExtend 32).toNat % 2 ^ k + true.toNat := by
    rw [mask_toNat small, Nat.mod_eq_of_lt (Nat.sub_lt (Nat.two_pow_pos k) Nat.one_pos), Bool.toNat_true]
    omega
  rw [decide_eq_true full, BitVec.getLsbD_xor, mask_clear small, Bool.xor_false] at carries
  exact carries

section
variable {k : Nat} (pos : 1 ≤ k) (small : k ≤ 16)
include pos small

/-- The masked tests look at bits 1 to `k`. -/
theorem wrapMx_getLsbD (j : Nat) : (wrapMx ((ringMask k).zeroExtend 32)).getLsbD j = decide (1 ≤ j ∧ j ≤ k) := by
  rw [wrapMx, BitVec.getLsbD_shiftLeft, BitVec.getLsbD_or, BitVec.getLsbD_setWidth, ringMask_getLsbD small,
    BitVec.getLsbD_one, Bool.eq_iff_iff]
  simp only [Bool.and_eq_true, Bool.or_eq_true, Bool.not_eq_true', decide_eq_true_eq, decide_eq_false_iff_not]
  omega

/-- The highest of them is the one above the wrap mask. -/
theorem exceeds_iff (x : BitVec 32) :
    (ringMask k).zeroExtend 32 < x &&& wrapMx ((ringMask k).zeroExtend 32) ↔ x.getLsbD k = true := by
  have bit (j : Nat) : (x &&& wrapMx ((ringMask k).zeroExtend 32)).toNat.testBit j =
      (x.getLsbD j && decide (1 ≤ j ∧ j ≤ k)) := by
    rw [← wrapMx_getLsbD pos small, ← BitVec.getLsbD_and]
    rfl
  have top : x.getLsbD k = (x &&& wrapMx ((ringMask k).zeroExtend 32)).toNat.testBit k := by
    rw [bit, decide_eq_true ⟨pos, Nat.le_refl k⟩, Bool.and_true]
  have bound : (x &&& wrapMx ((ringMask k).zeroExtend 32)).toNat < 2 ^ (k + 1) := by
    refine Nat.lt_pow_two_of_testBit _ fun j above => ?_
    rw [bit, decide_eq_false (by omega), Bool.and_false]
  rw [BitVec.lt_def, mask_toNat small, top]
  constructor
  · intro more
    exact Nat.testBit_of_two_pow_le_and_two_pow_add_one_gt (by omega) bound
  · intro set
    have := Nat.ge_two_pow_of_testBit set
    have := Nat.two_pow_pos k
    omega

/-! ### The corrected candidates -/

variable {ar : Word} {x D : BitVec 32} {e : Int}

/-- The correction of rules R65 to R68 that takes a block off: where the low bits carry out of the block. -/
theorem lowered_eq_moved (value : x.toNat = u32 (ar.toNat + e))
    (carry : D.getLsbD k = true ↔ (2 ^ k : Nat) ≤ offset k ar + e) (low : 0 ≤ e) (high : e ≤ (2 ^ k : Nat)) :
    (if (ringMask k).zeroExtend 32 < D &&& wrapMx ((ringMask k).zeroExtend 32)
      then x - ((ringMask k).zeroExtend 32 + 1#32) else x).extractLsb' 0 16 = moved k ar e := by
  have place := offset_lt k ar
  by_cases beyond : (2 ^ k : Nat) ≤ offset k ar + e
  · rw [if_pos ((exceeds_iff pos small D).mpr (carry.mpr beyond)), low16_of_value (lowered_toNat small value),
      Int.add_sub_assoc]
    exact displaced_eq_moved small ar ⟨by omega, by omega⟩ (.inr (.inr rfl))
  · rw [if_neg ((exceeds_iff pos small D).not.mpr (carry.not.mpr beyond)), low16_of_value value]
    exact displaced_eq_moved small ar ⟨by omega, by omega⟩ (.inl rfl)

/-- The correction of rules R67 and R68 that adds a block: where the low bits do not carry. -/
theorem lifted_eq_moved (value : x.toNat = u32 (ar.toNat + e))
    (carry : D.getLsbD k = true ↔ 0 ≤ offset k ar + e) (low : -(2 ^ k : Nat) ≤ e) (high : e ≤ 0) :
    (if (((x + (ringMask k).zeroExtend 32 + 1#32) ^^^ x) &&& (D &&& wrapMx ((ringMask k).zeroExtend 32))) ≤
          (ringMask k).zeroExtend 32
      then x + (ringMask k).zeroExtend 32 + 1#32 else x).extractLsb' 0 16 = moved k ar e := by
  have place := offset_lt k ar
  have test : (((x + (ringMask k).zeroExtend 32 + 1#32) ^^^ x) &&& (D &&& wrapMx ((ringMask k).zeroExtend 32))) ≤
      (ringMask k).zeroExtend 32 ↔ ¬0 ≤ offset k ar + e := by
    rw [← BitVec.not_lt, ← BitVec.and_assoc, exceeds_iff pos small, BitVec.getLsbD_and, lifted_bit small,
      Bool.true_and, carry]
  by_cases inside : 0 ≤ offset k ar + e
  · rw [if_neg (test.not.mpr (not_not.mpr inside)), low16_of_value value]
    exact displaced_eq_moved small ar ⟨inside, by omega⟩ (.inl rfl)
  · rw [if_pos (test.mpr inside), low16_of_value (lifted_toNat small value), Int.add_assoc]
    exact displaced_eq_moved small ar ⟨by omega, by omega⟩ (.inr (.inl rfl))

end

/-! ### The four address functions -/

/-- The low bits of a displacement into the block below. -/
theorem emod_of_neg {e P : Int} (low : -P ≤ e) (high : e < 0) : e % P = e + P := by
  rw [← Int.add_emod_right]
  exact Int.emod_eq_of_lt (by omega) (by omega)

/-- The carry of rule R67. -/
theorem addIx_carry {k : Nat} (small : k ≤ 16) (ar ix : Word) :
    ((ar.zeroExtend 32 + ix.signExtend 32) ^^^ ar.zeroExtend 32 ^^^ ix.signExtend 32).getLsbD k = true ↔
      (2 ^ k : Nat) ≤ offset k ar + ix.toInt % (2 ^ k : Nat) := by
  have carries := sum_bit (k := k) (by omega) (ar.zeroExtend 32) (ix.signExtend 32) false
  have low := low_bits_of_value small (signExtended_toNat ix)
  rw [show (BitVec.ofBool false).setWidth 32 = 0#32 from rfl, BitVec.add_zero, widened_toNat] at carries
  rw [carries, decide_eq_true_iff, Bool.toNat_false, offset]
  omega

/-- The carry of rule R68: the difference is the sum with the complement and a carry into bit 0. -/
theorem subIx_carry {k : Nat} (small : k ≤ 16) (ar ix : Word) :
    ((ar.zeroExtend 32 - ix.signExtend 32) ^^^ ar.zeroExtend 32 ^^^ ~~~ix.signExtend 32).getLsbD k = true ↔
      (2 ^ k : Nat) ≤ offset k ar + ((-ix.toInt - 1) % (2 ^ k : Nat) + 1) := by
  have carries := sum_bit (k := k) (by omega) (ar.zeroExtend 32) (~~~ix.signExtend 32) true
  have low := low_bits_of_value small (not_signExtended_toNat ix)
  have difference : ar.zeroExtend 32 + ~~~ix.signExtend 32 + (BitVec.ofBool true).setWidth 32 =
      ar.zeroExtend 32 - ix.signExtend 32 := by
    rw [BitVec.sub_eq_add_neg, BitVec.neg_eq_not_add, BitVec.add_assoc]
    rfl
  rw [difference, widened_toNat] at carries
  rw [carries, decide_eq_true_iff, Bool.toNat_true, offset]
  omega

theorem ringMask_or_one {k : Nat} (pos : 1 ≤ k) : 2 ^ k - 1 ||| 1 = 2 ^ k - 1 := by
  apply Nat.eq_of_testBit_eq
  intro j
  rw [Nat.testBit_or, Nat.testBit_two_pow_sub_one, Bool.eq_iff_iff, Bool.or_eq_true,
    Nat.testBit_one_eq_true_iff_self_eq_zero, decide_eq_true_iff]
  omega

/-- The test of rule R65: an increment flips a run of low bits, and flips more than `k` of them where it leaves the
block. -/
theorem succ_xor_gt_iff {k : Nat} (pos : 1 ≤ k) (a : Nat) :
    (a + 1 ^^^ a) > (2 ^ k - 1) * 2 ↔ 2 ^ k ≤ a % 2 ^ k + 1 := by
  have two : 2 ^ 1 ≤ 2 ^ k := Nat.pow_le_pow_right (by decide) pos
  have inside : a % 2 ^ k < 2 ^ k := Nat.mod_lt _ (Nat.two_pow_pos k)
  have flips := Nat.div_add_mod (a + 1 ^^^ a) (2 ^ k)
  have successor : a + 1 = 2 ^ k * (a / 2 ^ k) + (a % 2 ^ k + 1) := by rw [← Nat.add_assoc, Nat.div_add_mod]
  rw [Nat.xor_div_two_pow, Nat.xor_mod_two_pow] at flips
  by_cases beyond : 2 ^ k ≤ a % 2 ^ k + 1
  · have last : a % 2 ^ k + 1 = 2 ^ k := by omega
    rw [last, ← Nat.mul_succ] at successor
    have quotient : (a + 1) / 2 ^ k = a / 2 ^ k + 1 := by
      rw [successor, Nat.mul_div_cancel_left _ (Nat.two_pow_pos k)]
    have remainder : (a + 1) % 2 ^ k = 0 := by rw [successor, Nat.mul_mod_right]
    have changed : 1 ≤ (a / 2 ^ k + 1) ^^^ (a / 2 ^ k) :=
      Nat.one_le_iff_ne_zero.mpr (Nat.xor_eq_zero_iff.not.mpr (Nat.succ_ne_self _))
    have block := Nat.mul_le_mul_left (2 ^ k) changed
    rw [quotient, remainder, Nat.zero_xor] at flips
    exact iff_of_true (by omega) beyond
  · have quotient : (a + 1) / 2 ^ k = a / 2 ^ k := by
      have none : (a % 2 ^ k + 1) / 2 ^ k = 0 := Nat.div_eq_of_lt (by omega)
      rw [successor, Nat.mul_add_div (Nat.two_pow_pos k), none, Nat.add_zero]
    have low : ((a + 1) % 2 ^ k ^^^ a % 2 ^ k) < 2 ^ k := Nat.xor_lt_two_pow (Nat.mod_lt _ (Nat.two_pow_pos k)) inside
    rw [quotient, Nat.xor_self, Nat.mul_zero, Nat.zero_add] at flips
    exact iff_of_false (by omega) beyond

theorem moved_sixteen (ar : Word) (δ : Int) : moved 16 ar δ = BitVec.ofInt 16 (ar.toNat + δ) := by
  rw [moved, show ringMask 16 = BitVec.allOnes 16 from rfl, BitVec.not_allOnes, BitVec.and_zero, BitVec.zero_or,
    BitVec.and_allOnes, BitVec.ofInt_add, BitVec.ofInt_natCast, BitVec.ofNat_toNat, BitVec.setWidth_eq]

/-- With all 16 bits in the block a correction by a block is none. -/
theorem lifted_eq_moved_sixteen {c : Prop} [Decidable c] {ar : Word} {x : BitVec 32} {e : Int}
    (value : x.toNat = u32 (ar.toNat + e)) :
    (if c then x + (ringMask 16).zeroExtend 32 + 1#32 else x).extractLsb' 0 16 = moved 16 ar e := by
  have block : BitVec.ofInt 16 (2 ^ 16 : Nat) = 0#16 := rfl
  rw [moved_sixteen]
  split_ifs
  · rw [low16_of_value (lifted_toNat (Nat.le_refl 16) value), BitVec.ofInt_add, block, BitVec.add_zero]
  · exact low16_of_value value

section
variable {k : Nat} (pos : 1 ≤ k) (small : k ≤ 16) (ar ix : Word)
include pos small

theorem incAddr_eq_moved : incAddr ar (ringMask k) = moved k ar 1 := by
  have place := offset_lt k ar
  rw [incAddr_eq_incInt, ringMask_toNat small, incInt, ringMask_or_one pos]
  by_cases beyond : 2 ^ k ≤ offset k ar + 1
  · have lowered : ((ar.toNat + 1 : Nat) : Int) - ((2 ^ k - 1 : Nat) + 1) = ar.toNat + (1 - (2 ^ k : Nat)) := by omega
    simp only [if_pos ((succ_xor_gt_iff pos _).mpr beyond), lowered]
    exact displaced_eq_moved small ar ⟨by omega, by omega⟩ (.inr (.inr rfl))
  · simp only [if_neg ((succ_xor_gt_iff pos _).not.mpr beyond), Int.natCast_add]
    exact displaced_eq_moved small ar ⟨by omega, by omega⟩ (.inl rfl)

theorem decAddr_eq_moved : decAddr ar (ringMask k) = moved k ar (-1) := by
  have size := Nat.two_pow_pos k
  have value : (ar.zeroExtend 32 + (ringMask k).zeroExtend 32).toNat = u32 (ar.toNat + (-1 + (2 ^ k : Nat))) := by
    have fits : 2 ^ k ≤ 2 ^ 16 := Nat.pow_le_pow_right (by decide) small
    rw [BitVec.toNat_add, mask_toNat small, widened_toNat]
    generalize 2 ^ k = P at fits size ⊢
    simp only [u32]
    omega
  have carry : ((ar.zeroExtend 32 + (ringMask k).zeroExtend 32) ^^^ ar.zeroExtend 32).getLsbD k = true ↔
      (2 ^ k : Nat) ≤ offset k ar + (-1 + (2 ^ k : Nat) : Int) := by
    have carries := sum_bit (k := k) (by omega) (ar.zeroExtend 32) ((ringMask k).zeroExtend 32) false
    have full : (2 ^ k - 1) % 2 ^ k = 2 ^ k - 1 := Nat.mod_eq_of_lt (by omega)
    rw [show (BitVec.ofBool false).setWidth 32 = 0#32 from rfl, BitVec.add_zero, BitVec.getLsbD_xor,
      mask_clear small, Bool.xor_false, widened_toNat, mask_toNat small, full] at carries
    rw [carries, decide_eq_true_iff, Bool.toNat_false, offset]
    omega
  rw [← moved_add_block small]
  exact lowered_eq_moved pos small value carry (by omega) (by omega)

theorem addIxAddr_eq_moved (low : -(2 ^ k : Nat) ≤ ix.toInt) (high : ix.toInt < (2 ^ k : Nat)) :
    addIxAddr ar (ringMask k) ix = moved k ar ix.toInt := by
  have carry := addIx_carry small ar ix
  rw [addIxAddr]
  by_cases up : 0 ≤ ix.toInt
  · rw [Int.emod_eq_of_lt up high] at carry
    simp only [if_pos up]
    exact lowered_eq_moved pos small (sum_toNat ar ix) carry up (by omega)
  · rw [emod_of_neg low (by omega)] at carry
    simp only [if_neg up]
    exact lifted_eq_moved pos small (sum_toNat ar ix) (carry.trans (by omega)) low (by omega)

/-- A delta of -32768 takes the branch of the non-negative ones; that does no harm where the block is all 16 bits. -/
theorem subIxAddr_eq_moved (low : -(2 ^ k : Nat) ≤ ix.toInt) (high : ix.toInt < (2 ^ k : Nat))
    (other : ¬(k = 15 ∧ ix.toInt = -32768)) :
    subIxAddr ar (ringMask k) ix = moved k ar (-ix.toInt) := by
  have carry := subIx_carry small ar ix
  have value : (ar.zeroExtend 32 - ix.signExtend 32).toNat = u32 (ar.toNat + -ix.toInt) := difference_toNat ar ix
  rw [subIxAddr]
  by_cases up : -32767 ≤ ix.toInt ∧ ix.toInt ≤ -1
  · rw [Int.emod_eq_of_lt (by omega) (by omega)] at carry
    simp only [if_pos ((negative_delta_iff ix).mpr up)]
    exact lowered_eq_moved pos small value (carry.trans (by omega)) (by omega) (by omega)
  · simp only [if_neg ((negative_delta_iff ix).not.mpr up)]
    by_cases down : 0 ≤ ix.toInt
    · rw [emod_of_neg (by omega) (by omega)] at carry
      exact lifted_eq_moved pos small value (carry.trans (by omega)) (by omega) (by omega)
    · have least := BitVec.le_toInt ix
      have whole : k = 16 := by
        by_contra less
        have bound : 2 ^ k ≤ 2 ^ 14 := Nat.pow_le_pow_right (by decide) (by omega)
        omega
      subst whole
      exact lifted_eq_moved_sixteen value

end

/-! ### The commands (rules R69 to R73) -/

/-- A direct address-unit command leaves its address in the register. -/
theorem finishAddr_direct_get (n : Four) (v : Word) (s : State) : (finishAddr n false v s).ar.get n = v :=
  Bank4.get_set_self _ _ _

theorem moved_up (k : Nat) (ar d : Word) :
    moved k ar d.toInt = (ar &&& ~~~ringMask k) ||| ((ar + d) &&& ringMask k) := by
  rw [moved, BitVec.ofInt_toInt]
theorem moved_down (k : Nat) (ar d : Word) :
    moved k ar (-d.toInt) = (ar &&& ~~~ringMask k) ||| ((ar - d) &&& ringMask k) := by
  rw [moved, BitVec.ofInt_neg, BitVec.ofInt_toInt, BitVec.sub_eq_add_neg]

section
variable {n : Four} {s : State} {k : Nat} (pos : 1 ≤ k) (small : k ≤ 16) (ring : s.wr.get n = ringMask k)
include pos small ring

theorem exec_arinc_ring :
    exec (.arinc n false) s = .next (finishAddr n false (moved k (s.ar.get n) 1) s) := by
  rw [exec_arinc, ring, incAddr_eq_moved pos small]
theorem exec_ardec_ring :
    exec (.ardec n false) s = .next (finishAddr n false (moved k (s.ar.get n) (-1)) s) := by
  rw [exec_ardec, ring, decAddr_eq_moved pos small]

end

/-- Settles O22: both commands leave the moved address. -/
theorem incrementAndDecrementStayInTheRing : Obligations.IncrementAndDecrementStayInTheRing := by
  intro n s k pos small ring
  refine ⟨_, _, exec_arinc_ring pos small ring, exec_ardec_ring pos small ring, ?_, ?_⟩
  · rw [finishAddr_direct_get]
    exact moved_up k (s.ar.get n) 1#16
  · rw [finishAddr_direct_get]
    exact moved_down k (s.ar.get n) 1#16

/-- An address moved by one command and moved back by the next is as it was, and the other registers were not
touched. -/
theorem finishAddr_back {k : Nat} (small : k ≤ 16) (n : Four) (δ : Int) (s : State) :
    (finishAddr n false (moved k ((finishAddr n false (moved k (s.ar.get n) δ) s).ar.get n) (-δ))
      (finishAddr n false (moved k (s.ar.get n) δ) s)).ar = s.ar := by
  rw [finishAddr_direct_get, moved_back small]
  change (s.ar.set n _).set n (s.ar.get n) = s.ar
  rw [Bank4.set_set, Bank4.set_get]

/-- Settles O23: the second command finds the same mask, and moves the address back. -/
theorem incrementAndDecrementAreInverse : Obligations.IncrementAndDecrementAreInverse := fun _ s _ pos small ring =>
  ⟨⟨_, _, exec_arinc_ring pos small ring, exec_ardec_ring pos small ring, finishAddr_back small _ 1 s⟩,
    ⟨_, _, exec_ardec_ring pos small ring, exec_arinc_ring pos small ring, finishAddr_back small _ (-1) s⟩⟩

/-- Settles O24: both commands leave the address moved by the delta or against it. -/
theorem indexedUpdatesAreCircular : Obligations.IndexedUpdatesAreCircular := by
  intro n s k pos small ring low high
  have block : ((2 ^ k : Nat) : Int) = 2 ^ k := Nat.cast_pow 2 k
  rw [← block] at low high
  refine ⟨_, _, exec_araddix n false s, exec_arsubix n false s, ?_, fun other => ?_⟩
  · rw [finishAddr_direct_get, ring, addIxAddr_eq_moved pos small _ _ low (by omega), moved_up]
  · rw [finishAddr_direct_get, ring, subIxAddr_eq_moved pos small _ _ low (by omega) other, moved_down]

end Sys2Proof.Proofs
end
